-- ==== Sys2Proof/Word.lean ====
section
/-! DEFINITION. The widths of the block's values (00_scope.md R7) and the one way a table of fixed size is built from a
function of its index. -/

namespace Sys2Proof

/-- A byte, 8 bits, bit 7 the most significant (R7). -/
abbrev Byte := BitVec 8

/-- A command word, 64 bits (R45). -/
abbrev Word := BitVec 64

/-- The table of `n` entries whose entry `i` is `f i`. It is built from a list, which Lean's kernel evaluates quickly. -/
def tableOf (n : Nat) (f : Nat → Byte) : Vector Byte n :=
  ⟨⟨(List.range n).map f⟩, by simp⟩

end Sys2Proof
end

