-- ==== Sys2Proof/Syntax.lean ====
section
/-! DEFINITION. The ten commands of the opcode map (30_encoding.md R49) with the operands of R47. -/

namespace Sys2Proof

/-- A command of the block: one constructor per row of spec/opcode_table.json. Operands are the fields the command uses
(R47), as the bits of the word spell them (R48); the fields it does not use must be zero and are not operands. -/
inductive Instr where
  /-- `BUILD`: build the CRC8 table (R61). -/
  | build
  /-- `CRC8 A, B, C`: base address, length in bytes, final-XOR constant (R64). -/
  | crc8 (a b c : Byte)
  /-- `XCRC A, B`: base address, frame-type index (R71). -/
  | xcrc (a t : Byte)
  /-- `SEQADV`: advance the sequence counter (R72). -/
  | seqadv
  /-- `PACK A, B, C, IMM`: base address, start bit, width, field value (R81). -/
  | pack (a start width : Byte) (imm : BitVec 32)
  /-- `XSUM A, B`: base address, length in bytes (R83). -/
  | xsum (a b : Byte)
  /-- `CNXT A, B`: counter value, modulus code (R84). -/
  | cnxt (v m : Byte)
  /-- `WRB A, C`: address, byte (R90). -/
  | wrb (a c : Byte)
  /-- `RDB A`: address (R91). -/
  | rdb (a : Byte)
  /-- `STRES A`: address (R92). -/
  | stres (a : Byte)
  deriving DecidableEq, Repr

end Sys2Proof
end

