-- ==== Sys2Proof/Decode.lean ====
section
/-! DEFINITION. The decoder and the encoder of format CMD64 (30_encoding.md R45 to R51). -/

namespace Sys2Proof

/-- Why a word is illegal (R50). -/
inductive IllegalWord where
  /-- `OP` is 0x00 or 0x0B..0xFF. -/
  | unassignedOpcode (op : Byte)
  /-- `OP` is assigned and a must-be-zero field of the named command is not zero. -/
  | mustBeZero (mnemonic : String)
  deriving DecidableEq, Repr

/-- What a word spells: exactly one command, or nothing (R51). -/
inductive Decoded where
  | legal (i : Instr)
  | illegal (why : IllegalWord)
  deriving DecidableEq, Repr

/-- Field `OP`, bits 63:56 (R46). -/
def opField (w : Word) : Byte := w.extractLsb' 56 8

/-- Field `A`, bits 55:48 (R46). -/
def aField (w : Word) : Byte := w.extractLsb' 48 8

/-- Field `B`, bits 47:40 (R46). -/
def bField (w : Word) : Byte := w.extractLsb' 40 8

/-- Field `C`, bits 39:32 (R46). -/
def cField (w : Word) : Byte := w.extractLsb' 32 8

/-- Field `IMM`, bits 31:0 (R46). -/
def immField (w : Word) : BitVec 32 := w.extractLsb' 0 32

/-- The command `i` if the must-be-zero fields of R47 are zero, the illegal word of the named command otherwise. -/
def requireZero (mnemonic : String) (zero : Bool) (i : Instr) : Decoded :=
  if zero then .legal i else .illegal (.mustBeZero mnemonic)

/-- The command a word spells (R47, R49), total on 64-bit words (R51). -/
def decode (w : Word) : Decoded :=
  let a := aField w
  let b := bField w
  let c := cField w
  let imm := immField w
  match opField w with
  | 0x01#8 => requireZero "BUILD" (a == 0 && b == 0 && c == 0 && imm == 0) .build
  | 0x02#8 => requireZero "CRC8" (imm == 0) (.crc8 a b c)
  | 0x03#8 => requireZero "XCRC" (c == 0 && imm == 0) (.xcrc a b)
  | 0x04#8 => requireZero "SEQADV" (a == 0 && b == 0 && c == 0 && imm == 0) .seqadv
  | 0x05#8 => .legal (.pack a b c imm)
  | 0x06#8 => requireZero "XSUM" (c == 0 && imm == 0) (.xsum a b)
  | 0x07#8 => requireZero "CNXT" (c == 0 && imm == 0) (.cnxt a b)
  | 0x08#8 => requireZero "WRB" (b == 0 && imm == 0) (.wrb a c)
  | 0x09#8 => requireZero "RDB" (b == 0 && c == 0 && imm == 0) (.rdb a)
  | 0x0A#8 => requireZero "STRES" (b == 0 && c == 0 && imm == 0) (.stres a)
  | op => .illegal (.unassignedOpcode op)

/-- `OP || A || B || C || IMM` (R46). -/
def joinFields (op a b c : Byte) (imm : BitVec 32) : Word := op ++ a ++ b ++ c ++ imm

/-- The word of a command: its opcode and operands, every unused field zero (R47, R49). -/
def encode : Instr → Word
  | .build => joinFields 0x01#8 0 0 0 0
  | .crc8 a b c => joinFields 0x02#8 a b c 0
  | .xcrc a t => joinFields 0x03#8 a t 0 0
  | .seqadv => joinFields 0x04#8 0 0 0 0
  | .pack a start width imm => joinFields 0x05#8 a start width imm
  | .xsum a b => joinFields 0x06#8 a b 0 0
  | .cnxt v m => joinFields 0x07#8 v m 0 0
  | .wrb a c => joinFields 0x08#8 a 0 c 0
  | .rdb a => joinFields 0x09#8 a 0 0 0
  | .stres a => joinFields 0x0A#8 a 0 0 0

/-- A row of the opcode map R49: a word `w` spells the command when `w & mask = match`. -/
structure OpcodeRow where
  mnemonic : String
  matchWord : Word
  maskWord : Word
  deriving DecidableEq, Repr

/-- A word spells the command of the row (R49). -/
def OpcodeRow.spells (r : OpcodeRow) (w : Word) : Bool := w &&& r.maskWord == r.matchWord

/-- The row of the opcode map R49 that a command belongs to, transcribed apart from `decode` and `encode`. -/
def Instr.row : Instr → OpcodeRow
  | .build => ⟨"BUILD", 0x0100000000000000#64, 0xFFFFFFFFFFFFFFFF#64⟩
  | .crc8 _ _ _ => ⟨"CRC8", 0x0200000000000000#64, 0xFF000000FFFFFFFF#64⟩
  | .xcrc _ _ => ⟨"XCRC", 0x0300000000000000#64, 0xFF0000FFFFFFFFFF#64⟩
  | .seqadv => ⟨"SEQADV", 0x0400000000000000#64, 0xFFFFFFFFFFFFFFFF#64⟩
  | .pack _ _ _ _ => ⟨"PACK", 0x0500000000000000#64, 0xFF00000000000000#64⟩
  | .xsum _ _ => ⟨"XSUM", 0x0600000000000000#64, 0xFF0000FFFFFFFFFF#64⟩
  | .cnxt _ _ => ⟨"CNXT", 0x0700000000000000#64, 0xFF0000FFFFFFFFFF#64⟩
  | .wrb _ _ => ⟨"WRB", 0x0800000000000000#64, 0xFF00FF00FFFFFFFF#64⟩
  | .rdb _ => ⟨"RDB", 0x0900000000000000#64, 0xFF00FFFFFFFFFFFF#64⟩
  | .stres _ => ⟨"STRES", 0x0A00000000000000#64, 0xFF00FFFFFFFFFFFF#64⟩

/-- The ten rows of the opcode map, in the order of R49. -/
def opcodeMap : List OpcodeRow :=
  [Instr.row .build, Instr.row (.crc8 0 0 0), Instr.row (.xcrc 0 0), Instr.row .seqadv, Instr.row (.pack 0 0 0 0),
   Instr.row (.xsum 0 0), Instr.row (.cnxt 0 0), Instr.row (.wrb 0 0), Instr.row (.rdb 0), Instr.row (.stres 0)]

/-- The command of a decoded word, if it spells one. -/
def Decoded.toOption : Decoded → Option Instr
  | .legal i => some i
  | .illegal _ => none

/-- The 64-bit word whose low `nbits` bits are those of `w`, bit 0 the least significant, and whose other bits are 0. A
command is one word taken as a value: no byte order enters (R43, R46, U21; log 9). -/
def tableWord (nbits w : Nat) : Word := BitVec.ofNat 64 (w % 2 ^ nbits)

/-- The command the decoder reads from the word that the opcode table numbers as `w`; none where the table would give an
instruction more than the 64 bits a command has (R45). -/
def decodeTableWord (nbits w : Nat) : Option Instr :=
  if nbits ≤ 64 then (decode (tableWord nbits w)).toOption else none

end Sys2Proof
end

