-- ==== Sys2Proof/Config.lean ====
section
/-! DEFINITION. What one build of the block fixes (00_scope.md R4, R5), the literals of the source (R6), and the free
values: bytes the spec leaves unspecified, constants without a body, so that nothing can be proved of what they are. -/

namespace Sys2Proof

/-! ### The literals of the source (R6), each named once

The algorithms and the types use these names. The statements and the reference forms of Safety.lean write the numbers of the
rules out, so that a change here does not pass unseen. -/

/-- The CRC8 polynomial (R6). -/
def Config.crc8Poly : Byte := 0x1D#8

/-- The CRC8 seed (R6). -/
def Config.crc8Seed : Byte := 0xFF#8

/-- The byte that `XCRC` XORs into its start value and its result: the complement by 0xFF (R6, R70). -/
def Config.xcrcComplement : Byte := 0xFF#8

/-- How many entries the CRC8 table and the XOR look-up table have (R4, R6). -/
abbrev Config.tableSize : Nat := 256

/-- The width of the sequence counter: 4 bits, which is the counter range 0 to 15 (R4, R6). -/
abbrev Config.seqBits : Nat := 4

/-- How many entries a Kennung table has: one for each value of the counter (R4). -/
abbrev Config.kennungSize : Nat := 2 ^ Config.seqBits

/-- How many data bytes a frame has at most: frame length 0 to 8 (R4, R6). -/
abbrev Config.frameLength : Nat := 8

/-- The value at which the BMW F-series `count` counter resets (R6): the modulus a host gives to `CNXT` for it (R85, C3). No
command has it built in. -/
abbrev Config.countResetsAt : Nat := 254

/-- The width of a frame identifier (R6). Identifiers are out of scope (R2), so nothing in the block uses it. -/
abbrev Config.identifierBits : Nat := 11

/-! ### Tables and parameters -/

/-- A table of bytes indexed by a byte: `TAB` and `XTAB` (R17, R18). -/
abbrev ByteTable := Vector Byte Config.tableSize

/-- A value of the sequence counter (R14). -/
abbrev SeqCount := BitVec Config.seqBits

/-- A Kennung table, indexed by the sequence counter (R19). -/
abbrev KennungTable := Vector Byte Config.kennungSize

/-- A frame-type descriptor `XD[t]` (R5, R20): the identifier constant `hn`, the participating byte offsets in the order
in which they are folded, each below the frame length, and the number of the Kennung table. -/
structure FrameType where
  hn : Byte
  offs : List (Fin Config.frameLength)
  kidx : Nat
  deriving DecidableEq, Repr

/-- A configuration is well formed when there are at most 256 Kennung tables and at most 256 descriptors (R4), every
`kidx` names a table, and every offset list has at most 8 elements (R5). That an offset is in 0..7 is in its type. -/
def wellFormedTables (ken : List KennungTable) (xd : List FrameType) : Bool :=
  decide (ken.length ≤ 256) && decide (xd.length ≤ 256) &&
    xd.all fun d => decide (d.kidx < ken.length) && decide (d.offs.length ≤ Config.frameLength)

/-- The frame-type tables `KEN` and `XD` (R5), with the well-formedness that the model is stated over. DEDUCED, log 4: an
ill-formed configuration is no value of this type, which is the treatment `refuse` of U14. Safe. -/
structure FrameTables where
  ken : List KennungTable
  xd : List FrameType
  ok : wellFormedTables ken xd = true
  deriving DecidableEq, Repr

/-- The parameters of one build (R4, R5): `MSIZE`, `SEQ_RESET`, `XTAB`, and the tables `KEN` and `XD`, whose lengths are
`NK` and `NX`. DESIGN CHOICE, log 2: `State` carries them, no step writes them. Safe. -/
structure Config where
  msize : Nat
  seqReset : SeqCount
  xtab : ByteTable
  tables : FrameTables
  msize_ok : 1 ≤ msize ∧ msize ≤ 256
  deriving DecidableEq, Repr

/-- `NX`, the number of frame-type descriptors (R4). -/
def Config.nx (c : Config) : Nat := c.tables.xd.length

/-- `NK`, the number of Kennung tables (R4). -/
def Config.nk (c : Config) : Nat := c.tables.ken.length

/-! ### Free values and the configuration of `State.reset` -/

/-- The byte `M[a]` holds while nothing has written it since the `n`-th reset (R24, R121, U1, U18). A free value:
DESIGN CHOICE of its form, log 5. Safe. -/
opaque Config.unwrittenByte (n a : Nat) : BitVec 8

/-- The byte `TAB[i]` holds between the `n`-th reset and the first `BUILD` after it (R24, R121, U2). A free value:
DESIGN CHOICE of its form, log 6. Safe. -/
opaque Config.unbuiltEntry (n i : Nat) : BitVec 8

/-- `XTAB` of the block that `State.reset` is a state of: an opaque calibrated constant (R18, R75). DESIGN CHOICE, log 3. -/
opaque Config.someXtab : Vector (BitVec 8) Config.tableSize

/-- `KEN` of the block that `State.reset` is a state of (R19, R75). DESIGN CHOICE, log 3. -/
opaque Config.someKen : List (Vector (BitVec 8) Config.kennungSize)

/-- `XD` of the block that `State.reset` is a state of (R20, R75). DESIGN CHOICE, log 3. -/
opaque Config.someXd : List FrameType

/-- The frame-type tables of that block: any well-formed pair. Where the free lists do not fit together, the block is one
with no frame type; every well-formed pair is some value of the free lists (R5). -/
def Config.someTables : FrameTables :=
  if h : wellFormedTables Config.someKen Config.someXd = true then ⟨Config.someKen, Config.someXd, h⟩
  else ⟨[], [], rfl⟩

/-- The configuration of the block that `State.reset` is a state of: `MSIZE` and `SEQ_RESET` at the defaults the spec
states (R4), the calibrated tables free. DESIGN CHOICE, log 3, unsafe for a claim about `State.reset` alone. -/
def Config.atReset : Config where
  msize := 256
  seqReset := 0
  xtab := Config.someXtab
  tables := Config.someTables
  msize_ok := by decide

end Sys2Proof
end

