-- ==== Sys2Proof/Machine/State.lean ====
section
/-! DEFINITION. The state of the block (10_state.md R10), the host's actions (00_scope.md R3), the ways a step can end, and
the state after reset (R24). -/

namespace Sys2Proof.Machine

/-- The block never stops a step with a machine fault: this type is empty. Its five faults are architectural. Their entry
writes `FAULT` and `FCMD` (60_exceptions.md R101) and is a next state; the halted block goes on taking words and ignores
them (R103). DEDUCED, log 1, safe. -/
inductive Fault where
  deriving DecidableEq, Repr

/-- No meaning refuses: every command is total (R9). -/
inductive Refusal where
  /-- Raised by nobody: it would stand in an arm of `exec` for a command with no meaning yet. Safe. -/
  | notModelled (mnemonic : String)
  deriving DecidableEq, Repr

/-- The five fault causes of R100. -/
inductive FaultCause where
  | illegalCommand
  | badOperand
  | badFrameType
  | tableNotBuilt
  | addressRange
  deriving DecidableEq, Repr

/-- The registers the host can read without a command (R22). -/
inductive HostReg where
  | res
  | seq
  | tabv
  | fault
  | fcmd
  deriving DecidableEq, Repr

/-- What the host can do to the block, and all it can do (R3). -/
inductive HostAction where
  /-- Issue a command word. -/
  | issue (w : Word)
  /-- Read a host-visible register between two commands (R22). DESIGN CHOICE, log 12, safe. -/
  | read (r : HostReg)
  /-- Assert reset between two commands (R120). DEDUCED, log 13, safe. -/
  | reset
  deriving DecidableEq, Repr

/-- Buffer memory `M`: the bytes written since the last reset, as (address, byte) pairs. Its canonical form is
`Memory.wf`. -/
abbrev Memory := List Host.Cell

/-- The state. `mem` to `fcmd` are the table of R10, and nothing else is the block's own state (R25). `cfg` holds the
parameters of R4 and R5 (log 2); `inbox` is the host (log 8); `resets` indexes the unspecified bytes (log 7). -/
structure State where
  /-- The parameters of this build, written by no step. DESIGN CHOICE, log 2, safe. -/
  cfg : Config
  /-- `M`, `MSIZE` bytes (R21): the bytes written since reset. DESIGN CHOICE, log 5, safe. -/
  mem : Memory
  /-- `TAB`, the CRC8 table (R17). -/
  tab : ByteTable
  /-- `TABV`, the table-valid flag (R13). -/
  tabv : Bool
  /-- `SEQ`, the sequence counter (R14). -/
  seq : SeqCount
  /-- `RES`, the result register (R15). -/
  res : Byte
  /-- `FAULT`, the fault cause, 0 for none (R16). DESIGN CHOICE of all 8 bits over an enumeration, log 17, safe. -/
  fault : Byte
  /-- `FCMD`, the command word that faulted (R16). -/
  fcmd : Word
  /-- The host's actions still to come, the next one first. The model's own. DESIGN CHOICE, log 8, safe. -/
  inbox : List HostAction
  /-- How many resets there have been since power-on. The model's own. DESIGN CHOICE, log 7, safe. -/
  resets : Nat
  deriving DecidableEq, Repr

/-- The contents of `TAB` after the `n`-th reset: unspecified (R24, R121). Free values, log 6. -/
def unbuiltTable (n : Nat) : ByteTable := tableOf Config.tableSize (Config.unbuiltEntry n)

/-- The state at power-on, which is the state after reset (R24, R120): `TABV`, `RES`, `FAULT` and `FCMD` are 0, `SEQ` is
`SEQ_RESET`, nothing is known of `M` and `TAB`, and the host has issued nothing yet. -/
def State.reset : State where
  cfg := Config.atReset
  mem := []
  tab := unbuiltTable 0
  tabv := false
  seq := Config.atReset.seqReset
  res := 0
  fault := 0
  fcmd := 0
  inbox := []
  resets := 0

end Sys2Proof.Machine
end

