-- ==== Sys2Proof/Machine/Flags.lean ====
section
/-! DEFINITION. The flags: `TABV` is the only one (10_state.md R13), no command sets a condition code. Beside it, the
halted condition that every command checks (60_exceptions.md R103). -/

namespace Sys2Proof.Machine

/-- The block is halted while `FAULT` is not 0 (R103). -/
def State.halted (s : State) : Bool := s.fault != 0

/-- `TABV` is 0: the table has not been built since reset, so `CRC8` must fault (R13, R64). -/
def State.tableNotBuilt (s : State) : Bool := !s.tabv

/-- Fill `TAB` and set `TABV` to 1, in one atomic step (R13, R61). No command clears `TABV`. -/
def State.setTable (s : State) (t : ByteTable) : State := { s with tab := t, tabv := true }

end Sys2Proof.Machine
end

