-- ==== Sys2Proof/Machine/Ops.lean ====
section
/-! DEFINITION. The named operations over memory and registers: buffer memory and its primitives (20_memory.md R30, R31),
the result and counter registers, fault entry and reset (60_exceptions.md R101, 70_reset_and_hazards.md R120), the host's
register read (10_state.md R22), and the frame every command runs in (R103). -/

namespace Sys2Proof.Machine

/-- What an unlisted address of `M` holds: no value, because nothing has written the byte since reset (R24). DESIGN
CHOICE, log 5, safe. -/
def Memory.unlisted (_a : Nat) : Option Byte := none

/-- The byte a memory lists for an address, or what an unlisted address holds. -/
def Memory.lookup : Memory → Nat → Option Byte
  | [], a => Memory.unlisted a
  | c :: m, a => if c.1 = a then some c.2 else Memory.lookup m a

/-- The memory without an entry for the address. -/
def Memory.erase : Memory → Nat → Memory
  | [], _ => []
  | c :: m, a => if c.1 = a then m else c :: Memory.erase m a

/-- The memory with the entry (address, byte) in its place in the rising order, over an older one. -/
def Memory.insert : Memory → Nat → Byte → Memory
  | [], a, v => [(a, v)]
  | c :: m, a, v =>
    if a < c.1 then (a, v) :: c :: m
    else if c.1 = a then (a, v) :: m
    else c :: Memory.insert m a v

/-- Write one byte, keeping the canonical form. -/
def Memory.store (m : Memory) (a : Nat) (v : Byte) : Memory :=
  if some v = Memory.unlisted a then Memory.erase m a else Memory.insert m a v

/-- The canonical form: addresses strictly rising, and no entry equal to what an unlisted address holds. -/
abbrev Memory.wf (m : Memory) : Prop :=
  m.Pairwise (fun c d => c.1 < d.1) ∧ ∀ c ∈ m, some c.2 ≠ Memory.unlisted c.1

/-- `M[a]`: the byte written last, or, while nothing has written it since reset, an unspecified byte that stays the same
until it is written (R24, R37, R91). -/
def State.byteAt (s : State) (a : Nat) : Byte :=
  match Memory.lookup s.mem a with
  | some v => v
  | none => Config.unwrittenByte s.resets a

/-- The bytes `M[a], ..., M[a+n-1]`, ascending (R31, R32). -/
def State.bytesAt (s : State) (a n : Nat) : List Byte := (List.range n).map fun i => s.byteAt (a + i)

/-- `M[a] <- v` (R8). -/
def State.writeByte (s : State) (a : Nat) (v : Byte) : State := { s with mem := Memory.store s.mem a v }

/-- `M[a+i] <- v[i]` for each byte of the list, ascending (R31). -/
def State.writeBytes (s : State) (a : Nat) : List Byte → State
  | [] => s
  | v :: vs => State.writeBytes (s.writeByte a v) (a + 1) vs

/-- `MemRead(a, n)` (R31): none stands for the raise of `AddressRange`, made before any byte is read. The sum is exact
(R30). -/
def State.memRead (s : State) (a n : Nat) : Option (List Byte) :=
  if a + n > s.cfg.msize then none else some (s.bytesAt a n)

/-- `MemWrite(a, n, v)`, `n` the length of `v` (R31): none stands for the raise of `AddressRange`, made before any byte
is written. -/
def State.memWrite (s : State) (a : Nat) (v : List Byte) : Option State :=
  if a + v.length > s.cfg.msize then none else some (s.writeBytes a v)

/-- `RES <- v` (R8, R15). -/
def State.setRes (s : State) (v : Byte) : State := { s with res := v }

/-- `SEQ <- v` (R8, R14). -/
def State.setSeq (s : State) (v : SeqCount) : State := { s with seq := v }

/-- The code of a fault cause (R100). -/
def FaultCause.code : FaultCause → Byte
  | .illegalCommand => 1
  | .badOperand => 2
  | .badFrameType => 3
  | .tableNotBuilt => 4
  | .addressRange => 5

/-- Fault entry: `FAULT <- code`, `FCMD <- w`, nothing else (R101). The block is halted from here on (R103).
A command gives its own encoding as `w`, which is the word issued. DEDUCED, log 10, safe. -/
def State.raise (s : State) (cause : FaultCause) (w : Word) : State := { s with fault := cause.code, fcmd := w }

/-- Reset, the only way out of the halted state (R103, R106): every register at the value of R24, `M` and `TAB`
unspecified again and possibly different from before, the configuration untouched (R120, R121). -/
def State.applyReset (s : State) : State :=
  { s with
    mem := []
    tab := unbuiltTable (s.resets + 1)
    tabv := false
    seq := s.cfg.seqReset
    res := 0
    fault := 0
    fcmd := 0
    resets := s.resets + 1 }

/-- How wide a host-visible register is (R10). -/
def HostReg.width : HostReg → Nat
  | .res => 8
  | .seq => Config.seqBits
  | .tabv => 1
  | .fault => 8
  | .fcmd => 64

/-- The value the host gets when it reads a register: the current one; the state is unchanged (R22). -/
def State.hostRead (s : State) : (r : HostReg) → BitVec r.width
  | .res => s.res
  | .seq => s.seq
  | .tabv => BitVec.ofBool s.tabv
  | .fault => s.fault
  | .fcmd => s.fcmd

/-- How every command runs: a halted block ignores it and changes nothing (R103); otherwise its effect is a total
function of the state (R9). DEDUCED, log 11, safe. -/
def State.command (s : State) (effect : State → State) : Host.Outcome State Fault Refusal :=
  .next (if s.halted then s else effect s)

/-- An illegal word raises `IllegalCommand` and its operands are not examined (R50, R104). -/
def State.illegalCommand (s : State) (w : Word) : Host.Outcome State Fault Refusal :=
  s.command fun s => s.raise .illegalCommand w

end Sys2Proof.Machine
end

