-- ==== Sys2Proof/Machine/Operands.lean ====
section
/-! DEFINITION. The operand forms: table indexes, the descriptor a frame-type index selects, the bytes a `PACK` touches,
the modulus code, and which bytes of `M` each command reads and writes (20_memory.md R36). -/

namespace Sys2Proof.Machine

/-- `TAB[i]` or `XTAB[i]`: an 8-bit index into 256 entries always fits (R87). -/
def tableAt (t : ByteTable) (i : Byte) : Byte :=
  t[i.toNat]'(Nat.lt_of_lt_of_le i.isLt (by decide : 2 ^ 8 ≤ Config.tableSize))

/-- `KEN[k][i]`: a 4-bit index into 16 entries always fits (R87). -/
def kennungAt (t : KennungTable) (i : SeqCount) : Byte := t[i.toNat]'i.isLt

/-- In well-formed tables every descriptor names a Kennung table (R5). -/
theorem kidx_lt_length (T : FrameTables) (t : Nat) (h : t < T.xd.length) : (T.xd[t]).kidx < T.ken.length := by
  have hok := T.ok
  simp only [wellFormedTables, Bool.and_eq_true, List.all_eq_true, decide_eq_true_eq] at hok
  exact (hok.2 _ (List.getElem_mem h)).1

/-- `KEN[XD[t].kidx][seq]`, the Kennung entry of frame type `t` (R19, R71). -/
def kennungOf (T : FrameTables) (t : Nat) (h : t < T.xd.length) (seq : SeqCount) : Byte :=
  kennungAt (T.ken[(T.xd[t]).kidx]'(kidx_lt_length T t h)) seq

/-- The addresses `a, ..., a+n-1`. -/
def addrRange (a n : Nat) : List Nat := (List.range n).map (a + ·)

/-- The addresses `A + off` of a descriptor, in the order of its list (R71). -/
def offsetAddrs (a : Nat) (offs : List (Fin Config.frameLength)) : List Nat := offs.map fun off => a + off.val

/-- The first byte a `PACK` touches, `A + s div 8` (R81). -/
def packLo (a start : Nat) : Nat := a + start / 8

/-- The last byte a `PACK` touches, `A + (s + w - 1) div 8` (R81). -/
def packHi (a start width : Nat) : Nat := a + (start + width - 1) / 8

/-- How many bytes a `PACK` touches, `hi - lo + 1` (R81). -/
def packLen (a start width : Nat) : Nat := packHi a start width - packLo a start + 1

/-- The width of a `PACK` is legal: 1..32 (R81). -/
def legalWidth (width : Byte) : Bool := decide (1 ≤ width.toNat) && decide (width.toNat ≤ 32)

/-- The modulus a code stands for: 0 for 256, otherwise itself (R48, R84). -/
def modulusOf (code : Byte) : Nat := if code = 0 then 256 else code.toNat

/-- The addresses of `M` a command reads, in the order in which it reads them (R36). A command turned away for its operand
reads none. -/
def readAddrs (c : Config) : Instr → List Nat
  | .build => []
  | .crc8 a b _ => addrRange a.toNat b.toNat
  | .xcrc a t => if h : t.toNat < c.tables.xd.length then offsetAddrs a.toNat (c.tables.xd[t.toNat]).offs else []
  | .seqadv => []
  | .pack a start width _ =>
    if legalWidth width then
      addrRange (packLo a.toNat start.toNat) (packLen a.toNat start.toNat width.toNat)
    else []
  | .xsum a b => addrRange a.toNat b.toNat
  | .cnxt _ _ => []
  | .wrb _ _ => []
  | .rdb a => [a.toNat]
  | .stres _ => []

/-- The addresses of `M` a command writes (R36). -/
def writeAddrs : Instr → List Nat
  | .build => []
  | .crc8 _ _ _ => []
  | .xcrc _ _ => []
  | .seqadv => []
  | .pack a start width _ =>
    if legalWidth width then
      addrRange (packLo a.toNat start.toNat) (packLen a.toNat start.toNat width.toNat)
    else []
  | .xsum _ _ => []
  | .cnxt _ _ => []
  | .wrb a _ => [a.toNat]
  | .rdb _ => []
  | .stres a => [a.toNat]

end Sys2Proof.Machine
end

