-- ==== Sys2Proof/Machine/BufferUnit.lean ====
section
/-! DEFINITION. The buffer access commands: `WRB`, `RDB` and `STRES` (43_buffer_access.md). -/

namespace Sys2Proof.Machine

/-- `WRB A, C` (R90). -/
def execWrb (a c : Byte) (s : State) : Host.Outcome State Fault Refusal :=
  s.command fun s => (s.memWrite a.toNat [c]).getD (s.raise .addressRange (encode (.wrb a c)))

/-- `RDB A` (R91): a byte that nothing has written since reset is an unspecified byte, not a fault (U18). -/
def execRdb (a : Byte) (s : State) : Host.Outcome State Fault Refusal :=
  s.command fun s =>
    if a.toNat ≥ s.cfg.msize then s.raise .addressRange (encode (.rdb a))
    else s.setRes (s.byteAt a.toNat)

/-- `STRES A` (R92). -/
def execStres (a : Byte) (s : State) : Host.Outcome State Fault Refusal :=
  s.command fun s => (s.memWrite a.toNat [s.res]).getD (s.raise .addressRange (encode (.stres a)))

end Sys2Proof.Machine
end

