-- ==== Sys2Proof/Machine/Crc8Unit.lean ====
section
/-! DEFINITION. The CRC8 unit: `BUILD` and `CRC8` (40_crc8_j1850.md). -/

namespace Sys2Proof.Machine

/-- One step of the bitwise division by a polynomial whose low 8 coefficients are `poly`: bit 7 is tested first, then
shifted out (R34, R60, R87). -/
def divStep (poly c : Byte) : Byte := if c.getLsbD 7 then (c <<< 1) ^^^ poly else c <<< 1

/-- `k` steps of the division. -/
def divSteps (poly : Byte) : Nat → Byte → Byte
  | 0, c => c
  | k + 1, c => divSteps poly k (divStep poly c)

/-- `j1850_entry(i)` (R60). The direction, most significant bit first, is the spec's (D14, G1). UNVERIFIED against a
vehicle, log 15, unsafe. -/
def j1850Entry (i : Byte) : Byte := divSteps Config.crc8Poly 8 i

/-- The table `BUILD` writes: entry `i` is `j1850_entry(i)` (R61). -/
def j1850Table : ByteTable := tableOf Config.tableSize fun i => j1850Entry (BitVec.ofNat 8 i)

/-- The fold of `crc8_j1850` from a running value: `c <- TAB[c ^ b]`, the first list element first (R63). -/
def crc8Fold (tab : ByteTable) (c : Byte) (bytes : List Byte) : Byte :=
  bytes.foldl (fun c b => tableAt tab (c ^^^ b)) c

/-- `crc8_j1850(bytes, fx)` over the table `tab` (R63): seed, fold, final XOR. -/
def crc8J1850 (tab : ByteTable) (bytes : List Byte) (fx : Byte) : Byte :=
  crc8Fold tab Config.crc8Seed bytes ^^^ fx

/-- `BUILD` (R61). -/
def execBuild (s : State) : Host.Outcome State Fault Refusal :=
  s.command fun s => s.setTable j1850Table

/-- `CRC8 A, B, C` (R64): the checks in the order of R104. -/
def execCrc8 (a b c : Byte) (s : State) : Host.Outcome State Fault Refusal :=
  s.command fun s =>
    if s.tableNotBuilt then s.raise .tableNotBuilt (encode (.crc8 a b c))
    else
      match s.memRead a.toNat b.toNat with
      | none => s.raise .addressRange (encode (.crc8 a b c))
      | some bytes => s.setRes (crc8J1850 s.tab bytes c)

end Sys2Proof.Machine
end

