-- ==== Sys2Proof/Machine/PackUnit.lean ====
section
/-! DEFINITION. The pack unit: `PACK`, `XSUM` and `CNXT` (42_pack_layout.md). -/

namespace Sys2Proof.Machine

/-- A byte with bit `k` (0..7) set to `v`, the other bits unchanged. -/
def setBit (b : Byte) (k : Nat) (v : Bool) : Byte :=
  if v then b ||| (1#8 <<< k) else b &&& ~~~(1#8 <<< k)

/-- A buffer with buffer bit `p` set to `v`: bit `p mod 8` of byte `p div 8`, bit 0 the least significant (R33). -/
def setBufferBit (buf : List Byte) (p : Nat) (v : Bool) : List Byte :=
  buf.modify (p / 8) fun b => setBit b (p % 8) v

/-- `insert_bits(buf, s, w, v)` (R80): bits `0, ..., w-1` of `v`, in that order, into buffer bits `s, ..., s+w-1`. -/
def insertBits (buf : List Byte) (start : Nat) (width : Nat) (v : BitVec 32) : List Byte :=
  match width with
  | 0 => buf
  | i + 1 => setBufferBit (insertBits buf start i v) (start + i) (v.getLsbD i)

/-- `PACK A, s, w, IMM` (R81): the checks in the order of R104; the range check of `MemRead` covers the bytes written
back, which are the bytes read. On bytes nothing has written, the bits around the field stay unspecified: DEDUCED, log 18,
safe. -/
def execPack (a start width : Byte) (imm : BitVec 32) (s : State) : Host.Outcome State Fault Refusal :=
  s.command fun s =>
    if legalWidth width then
      let lo := packLo a.toNat start.toNat
      match s.memRead lo (packLen a.toNat start.toNat width.toNat) with
      | none => s.raise .addressRange (encode (.pack a start width imm))
      | some buf => s.writeBytes lo (insertBits buf (start.toNat % 8) width.toNat imm)
    else s.raise .badOperand (encode (.pack a start width imm))

/-- The running XOR of R83, from 0x00 (D15). -/
def xsumOf (bytes : List Byte) : Byte := bytes.foldl (· ^^^ ·) 0#8

/-- `XSUM A, B` (R83). -/
def execXsum (a b : Byte) (s : State) : Host.Outcome State Fault Refusal :=
  s.command fun s =>
    match s.memRead a.toNat b.toNat with
    | none => s.raise .addressRange (encode (.xsum a b))
    | some bytes => s.setRes (xsumOf bytes)

/-- The next value of a counter of modulus `m`: 0 if `v + 1 >= m`, else `v + 1`, the sum on naturals (R84, R87). -/
def counterNext (v : Byte) (m : Nat) : Byte := if v.toNat + 1 ≥ m then 0#8 else BitVec.ofNat 8 (v.toNat + 1)

/-- `CNXT v, B` (R84): total in both operands. -/
def execCnxt (v m : Byte) (s : State) : Host.Outcome State Fault Refusal :=
  s.command fun s => s.setRes (counterNext v (modulusOf m))

end Sys2Proof.Machine
end

