-- ==== Sys2Proof/Machine/XcrcUnit.lean ====
section
/-! DEFINITION. The XCRC unit: `XCRC` and `SEQADV` (41_xor_rolling_crc.md). -/

namespace Sys2Proof.Machine

/-- Step 1 of `xcrc`: `(hn | zext_8(seq)) ^ 0xFF` (R70). -/
def xcrcStart (hn : Byte) (seq : SeqCount) : Byte := (hn ||| seq.setWidth 8) ^^^ Config.xcrcComplement

/-- `xcrc(hn, seq, data, k)` (R70): start value, fold (look up, then XOR: reading A of C1), Kennung entry, one more
look-up, complement. UNVERIFIED against a vehicle, log 15, unsafe. -/
def xcrcOf (xtab : ByteTable) (hn : Byte) (seq : SeqCount) (data : List Byte) (k : Byte) : Byte :=
  let folded := data.foldl (fun c d => tableAt xtab c ^^^ d) (xcrcStart hn seq)
  let met := tableAt xtab folded ^^^ k
  tableAt xtab met ^^^ Config.xcrcComplement

/-- `XCRC A, t` (R71): the checks in the order of R104; `SEQ` is read and not changed. -/
def execXcrc (a t : Byte) (s : State) : Host.Outcome State Fault Refusal :=
  s.command fun s =>
    if h : t.toNat < s.cfg.tables.xd.length then
      let d := s.cfg.tables.xd[t.toNat]
      let addrs := offsetAddrs a.toNat d.offs
      if addrs.any (fun x => decide (x ≥ s.cfg.msize)) then s.raise .addressRange (encode (.xcrc a t))
      else s.setRes (xcrcOf s.cfg.xtab d.hn s.seq (addrs.map s.byteAt) (kennungOf s.cfg.tables t.toNat h s.seq))
    else s.raise .badFrameType (encode (.xcrc a t))

/-- `SEQADV` (R72): `SEQ <- (SEQ + 1) mod 16`, the wrap of a 4-bit register. -/
def execSeqadv (s : State) : Host.Outcome State Fault Refusal :=
  s.command fun s => s.setSeq (s.seq + 1)

end Sys2Proof.Machine
end

