-- ==== Sys2Proof/Machine/Dispatch.lean ====
section
/-! DEFINITION. The meaning of every command of the opcode map (30_encoding.md R49), one arm each. -/

namespace Sys2Proof.Machine

def exec (i : Instr) (s : State) : Host.Outcome State Fault Refusal :=
  match i with
  | .build => Sys2Proof.Machine.execBuild s
  | .crc8 a b c => Sys2Proof.Machine.execCrc8 a b c s
  | .xcrc a t => Sys2Proof.Machine.execXcrc a t s
  | .seqadv => Sys2Proof.Machine.execSeqadv s
  | .pack a start width imm => Sys2Proof.Machine.execPack a start width imm s
  | .xsum a b => Sys2Proof.Machine.execXsum a b s
  | .cnxt v m => Sys2Proof.Machine.execCnxt v m s
  | .wrb a c => Sys2Proof.Machine.execWrb a c s
  | .rdb a => Sys2Proof.Machine.execRdb a s
  | .stres a => Sys2Proof.Machine.execStres a s

end Sys2Proof.Machine
end

