-- ==== Sys2Proof/Machine/Step.lean ====
section
/-! DEFINITION. One step: the host's next action meets the block (00_scope.md R3, 10_state.md R12, 30_encoding.md R54). -/

namespace Sys2Proof.Machine

/-- The execution of one command word, from decode to the last state write (R3): the command it spells, or the raise of
`IllegalCommand` where it spells none (R50). -/
def execWord (w : Word) (s : State) : Host.Outcome State Fault Refusal :=
  match decode w with
  | .legal i => exec i s
  | .illegal _ => s.illegalCommand w

/-- One step. The host's next action is taken from `inbox`: a register read changes nothing (R22), reset resets (R120), a
command word is executed. With no action the block is idle and the state stays as
it is. DESIGN CHOICE, log 8, safe. -/
def step (s : State) : Host.Outcome State Fault Refusal :=
  match s.inbox with
  | [] => .next s
  | .read _ :: rest => .next { s with inbox := rest }
  | .reset :: rest => .next (State.applyReset { s with inbox := rest })
  | .issue w :: rest => execWord w { s with inbox := rest }

/-- The state in which the host's next action is to issue the word that the opcode table numbers as `w`; everything else
is as it was. DEDUCED, log 9, safe. -/
def State.withFetchWord (s : State) (nbits w : Nat) : State :=
  { s with inbox := .issue (tableWord nbits w) :: s.inbox }

end Sys2Proof.Machine
end

