-- ==== Sys2Proof/Machine/Assembler.lean ====
section
/-! DEFINITION. The assembler: command syntax and pseudo-commands (30_encoding.md R52, R53). What R52 leaves open of the
text (spaces, letter case of hexadecimal digits, empty lines) is DESIGN CHOICE, log 16, safe: no command depends on it. -/

namespace Sys2Proof.Machine

/-- A line of assembler after its text is read: a command of R52 or a pseudo-command of R53, with the numbers as written. -/
inductive AsmLine where
  | build
  | crc8 (addr len fx : Nat)
  | xcrc (addr t : Nat)
  | seqadv
  | pack (addr start width value : Nat)
  | xsum (addr len : Nat)
  | cnxt (v m : Nat)
  | wrb (addr byte : Nat)
  | rdb (addr : Nat)
  | stres (addr : Nat)
  | wrbs (addr : Nat) (bytes : List Nat)
  | packbe16 (addr byteoff value : Nat)
  | attach (addr : Nat)
  deriving DecidableEq, Repr

/-- The number as a byte field, refused if it is over 255 (R52). -/
def byteOperand (n : Nat) : Option Byte := if n < 256 then some (BitVec.ofNat 8 n) else none

/-- The number as the immediate, refused if it is over `2^32-1` (R52). -/
def immOperand (n : Nat) : Option (BitVec 32) := if n < 2 ^ 32 then some (BitVec.ofNat 32 n) else none

/-- The modulus as its code, `m mod 256`; refused outside 1..256 (R52). -/
def modulusOperand (m : Nat) : Option Byte := if 1 ≤ m ∧ m ≤ 256 then some (BitVec.ofNat 8 (m % 256)) else none

/-- `WRB addr+0, b0; WRB addr+1, b1; ...`, ascending; refused where an address or a byte does not fit its field (R53). -/
def seedCommands (addr : Nat) : List Nat → Option (List Instr)
  | [] => some []
  | b :: bs => do
    let a ← byteOperand addr
    let v ← byteOperand b
    let rest ← seedCommands (addr + 1) bs
    some (.wrb a v :: rest)

/-- The commands a line stands for, in order; none where the assembler refuses it (R52, R53). -/
def AsmLine.assemble : AsmLine → Option (List Instr)
  | .build => some [.build]
  | .crc8 addr len fx => do
    some [.crc8 (← byteOperand addr) (← byteOperand len) (← byteOperand fx)]
  | .xcrc addr t => do
    some [.xcrc (← byteOperand addr) (← byteOperand t)]
  | .seqadv => some [.seqadv]
  | .pack addr start width value => do
    some [.pack (← byteOperand addr) (← byteOperand start) (← byteOperand width) (← immOperand value)]
  | .xsum addr len => do
    some [.xsum (← byteOperand addr) (← byteOperand len)]
  | .cnxt v m => do
    some [.cnxt (← byteOperand v) (← modulusOperand m)]
  | .wrb addr byte => do
    some [.wrb (← byteOperand addr) (← byteOperand byte)]
  | .rdb addr => do
    some [.rdb (← byteOperand addr)]
  | .stres addr => do
    some [.stres (← byteOperand addr)]
  | .wrbs addr bytes => if bytes.isEmpty then none else seedCommands addr bytes
  | .packbe16 addr byteoff value =>
    if 8 * byteoff + 8 ≤ 255 ∧ value < 65536 then do
      let a ← byteOperand addr
      some [.pack a (BitVec.ofNat 8 (8 * byteoff)) 8 (BitVec.ofNat 32 (value >>> 8)),
            .pack a (BitVec.ofNat 8 (8 * byteoff + 8)) 8 (BitVec.ofNat 32 (value &&& 0xFF))]
    else none
  | .attach addr => do
    some [.stres (← byteOperand addr)]

/-- A space of the text. -/
def isBlank (c : Char) : Bool := c == ' ' || c == '\t' || c == '\r'

/-- The text without the blanks at its two ends. -/
def trimBlanks (cs : List Char) : List Char := ((cs.dropWhile isBlank).reverse.dropWhile isBlank).reverse

/-- The pieces of the text between the separators. -/
def splitAtChar (sep : Char) : List Char → List (List Char)
  | [] => [[]]
  | c :: cs =>
    if c == sep then [] :: splitAtChar sep cs
    else
      match splitAtChar sep cs with
      | [] => [[c]]
      | p :: ps => (c :: p) :: ps

/-- The value of a digit, decimal or hexadecimal. -/
def digitValue (c : Char) : Option Nat :=
  if '0' ≤ c ∧ c ≤ '9' then some (c.toNat - '0'.toNat)
  else if 'a' ≤ c ∧ c ≤ 'f' then some (c.toNat - 'a'.toNat + 10)
  else if 'A' ≤ c ∧ c ≤ 'F' then some (c.toNat - 'A'.toNat + 10)
  else none

/-- The digits as a number in the base, from the value of the digits before them. -/
def digitsValue (base acc : Nat) : List Char → Option Nat
  | [] => some acc
  | c :: cs =>
    match digitValue c with
    | some d => if d < base then digitsValue base (acc * base + d) cs else none
    | none => none

/-- A number: decimal, or hexadecimal with the prefix `0x` (R52). -/
def parseNumber : List Char → Option Nat
  | [] => none
  | ['0', 'x'] => none
  | '0' :: 'x' :: cs => digitsValue 16 0 cs
  | cs => digitsValue 10 0 cs

/-- The operands of a line, separated by commas (R52). -/
def parseOperands (cs : List Char) : Option (List Nat) :=
  if (trimBlanks cs).isEmpty then some [] else (splitAtChar ',' cs).mapM fun p => parseNumber (trimBlanks p)

/-- The line a mnemonic and its operands spell, in the order of R52, the unused operands left out. -/
def lineOf (mnemonic : String) (operands : List Nat) : Option AsmLine :=
  if mnemonic = "BUILD" then (match operands with | [] => some .build | _ => none)
  else if mnemonic = "CRC8" then (match operands with | [a, l, f] => some (.crc8 a l f) | _ => none)
  else if mnemonic = "XCRC" then (match operands with | [a, t] => some (.xcrc a t) | _ => none)
  else if mnemonic = "SEQADV" then (match operands with | [] => some .seqadv | _ => none)
  else if mnemonic = "PACK" then (match operands with | [a, s, w, v] => some (.pack a s w v) | _ => none)
  else if mnemonic = "XSUM" then (match operands with | [a, l] => some (.xsum a l) | _ => none)
  else if mnemonic = "CNXT" then (match operands with | [v, m] => some (.cnxt v m) | _ => none)
  else if mnemonic = "WRB" then (match operands with | [a, b] => some (.wrb a b) | _ => none)
  else if mnemonic = "RDB" then (match operands with | [a] => some (.rdb a) | _ => none)
  else if mnemonic = "STRES" then (match operands with | [a] => some (.stres a) | _ => none)
  else if mnemonic = "WRBS" then (match operands with | a :: bs => some (.wrbs a bs) | _ => none)
  else if mnemonic = "PACKBE16" then (match operands with | [a, o, v] => some (.packbe16 a o v) | _ => none)
  else if mnemonic = "ATTACH" then (match operands with | [a] => some (.attach a) | _ => none)
  else none

/-- The commands of one line of text: a comment runs from `;` to the line's end, a line with nothing else is no command,
and the mnemonic runs to the first blank (R52). -/
def assembleLine (text : List Char) : Option (List Instr) :=
  let body := trimBlanks (text.takeWhile (· != ';'))
  if body.isEmpty then some []
  else do
    let operands ← parseOperands (body.dropWhile (fun c => !isBlank c))
    let line ← lineOf (String.ofList (body.takeWhile (fun c => !isBlank c))) operands
    line.assemble

/-- The commands of a text, one line after another (R52); none if a line is refused. -/
def assemble (text : String) : Option (List Instr) := do
  let parts ← (splitAtChar '\n' text.toList).mapM assembleLine
  some parts.flatten

end Sys2Proof.Machine
end

