-- ==== Sys2Proof/WellFormed.lean ====
section
/-! DEFINITION. Which commands have legal operands (30_encoding.md R47). -/

namespace Sys2Proof

/-- Every operand has a value R47 calls legal. The only operand with an illegal value is the width of `PACK`, "legal
1..32"; every other field is legal at every value its bits can spell. This is no condition to decode or to run: a `PACK`
of another width is a legal word that raises `BadOperand` (R50, R81). DESIGN CHOICE, log 19, safe. -/
def Instr.wellFormed : Instr → Bool
  | .build => true
  | .crc8 _ _ _ => true
  | .xcrc _ _ => true
  | .seqadv => true
  | .pack _ _ width _ => decide (1 ≤ width.toNat) && decide (width.toNat ≤ 32)
  | .xsum _ _ => true
  | .cnxt _ _ => true
  | .wrb _ _ => true
  | .rdb _ => true
  | .stres _ => true

/-- `Instr.wellFormed` as a proposition. -/
abbrev Instr.WellFormed (i : Instr) : Prop := i.wellFormed = true

end Sys2Proof
end

