-- ==== Sys2Proof/Safety.lean ====
section
/-! DEFINITION. The terms in which claims speak: what a good state is, which fault a command is due, runs of commands, the
host's ordering duties (70_reset_and_hazards.md R122 to R126), and the reference forms of the three checksums. -/

namespace Sys2Proof.Machine

/-! ### States -/

/-- The legal states, which reset gives and every step keeps: `M` in its canonical form and inside `MSIZE` (R21, R30),
`FAULT` one of the codes the block writes (R100, U20), `FCMD` 0 while `FAULT` is 0 (R16), and a valid `TAB` holding
`j1850_entry` (R17). -/
structure State.Inv (s : State) : Prop where
  memory_wf : Memory.wf s.mem
  memory_inside : ∀ c ∈ s.mem, c.1 < s.cfg.msize
  fault_legal : s.fault.toNat ≤ 5
  fcmd_zero : s.fault = 0 → s.fcmd = 0
  table_built : s.tabv = true → ∀ i : Byte, tableAt s.tab i = j1850Entry i

/-- The range check of a command fails: some access it would make does not lie in `M` (R31, R64, R71, R81, R83, R90 to
R92). A zero-length range that starts above `MSIZE` fails it too (R31). DEDUCED, log 14, safe. -/
def rangeFault (c : Config) : Instr → Bool
  | .build => false
  | .crc8 a b _ => decide (a.toNat + b.toNat > c.msize)
  | .xcrc a t => (readAddrs c (.xcrc a t)).any fun x => decide (x ≥ c.msize)
  | .seqadv => false
  | .pack a start width _ => decide (packHi a.toNat start.toNat width.toNat ≥ c.msize)
  | .xsum a b => decide (a.toNat + b.toNat > c.msize)
  | .cnxt _ _ => false
  | .wrb a _ => decide (a.toNat ≥ c.msize)
  | .rdb a => decide (a.toNat ≥ c.msize)
  | .stres a => decide (a.toNat ≥ c.msize)

/-- The condition of a fault cause in the table of R100, for a legal word; the range condition is that of R31 (log 14). -/
def faultCondition (s : State) (i : Instr) : FaultCause → Bool
  | .illegalCommand => false
  | .badOperand =>
    match i with
    | .pack _ _ width _ => width == 0 || decide (width.toNat > 32)
    | _ => false
  | .badFrameType =>
    match i with
    | .xcrc _ t => decide (t.toNat ≥ s.cfg.nx)
    | _ => false
  | .tableNotBuilt =>
    match i with
    | .crc8 _ _ _ => s.tabv == false
    | _ => false
  | .addressRange => rangeFault s.cfg i

/-- The fault causes, lowest code first (R104). -/
def faultOrder : List FaultCause := [.illegalCommand, .badOperand, .badFrameType, .tableNotBuilt, .addressRange]

/-- The fault a command is due in a state: of the conditions that hold, the one with the lowest code (R104). -/
def faultDue (s : State) (i : Instr) : Option FaultCause := faultOrder.find? (faultCondition s i)

/-- `FAULT` and `FCMD` tell the cause and the command word of the fault since reset, and the word is still due that fault,
since nothing changes after it (R16, R101, R103). -/
def State.FaultRecorded (s : State) : Prop :=
  (s.fault = 0 ∧ s.fcmd = 0) ∨
  (s.fault = FaultCause.code .illegalCommand ∧ (decode s.fcmd).toOption = none) ∨
  ∃ i cause, decode s.fcmd = .legal i ∧ faultDue s i = some cause ∧ s.fault = cause.code

/-! ### Runs -/

/-- A run: the left fold of the commands over the state (R12). -/
def runCommands : List Instr → State → State
  | [], s => s
  | i :: is, s =>
    match exec i s with
    | .next t => runCommands is t
    | .fault _ => s
    | .refused _ => s

/-- The state with a host that will issue exactly these commands, in this order (R12, R54). -/
def State.issuing (s : State) (is : List Instr) : State := { s with inbox := is.map fun i => .issue (encode i) }

/-- A clean run ends with no fault recorded; claims about results take it as a premise (R103). -/
def CleanRun (is : List Instr) (s : State) : Prop := (runCommands is s).fault = 0

/-! ### Duties of the host

The block checks none of them but the first, by `TableNotBuilt` (R124, U19). DEDUCED, log 20, safe. -/

/-- Build the table: one `BUILD` before the first `CRC8` (R122 duty 1, R124). -/
def tableBuiltFirst : List Instr → Bool
  | [] => true
  | .build :: _ => true
  | .crc8 _ _ _ :: _ => false
  | _ :: is => tableBuiltFirst is

/-- Seed every buffer: every byte a command reads is among those already written (R122 duty 2). -/
def seededFrom (c : Config) (written : List Nat) : List Instr → Bool
  | [] => true
  | i :: is => (readAddrs c i).all (written.contains ·) && seededFrom c (writeAddrs i ++ written) is

/-- Sequence-counter stability over the commands of one cycle: exactly one `SEQADV`, and no `XCRC` after it (R73, R123). -/
def oneAdvanceAtEnd : List Instr → Bool
  | [] => false
  | .seqadv :: is => is.all fun i => match i with
    | .seqadv => false
    | .xcrc _ _ => false
    | _ => true
  | _ :: is => oneAdvanceAtEnd is

/-- The commands that overwrite `RES` (R15, R125). -/
def writesRes : Instr → Bool
  | .crc8 _ _ _ => true
  | .xcrc _ _ => true
  | .xsum _ _ => true
  | .cnxt _ _ => true
  | .rdb _ => true
  | .build => false
  | .seqadv => false
  | .pack _ _ _ _ => false
  | .wrb _ _ => false
  | .stres _ => false

/-- `RES` is a single register: a result is stored by `STRES` or read by the host before the next command that overwrites
it (R125). `waiting` says that a result has been neither stored nor read yet. -/
def resultsKept (waiting : Bool) : List HostAction → Bool
  | [] => true
  | .read .res :: as => resultsKept false as
  | .read _ :: as => resultsKept waiting as
  | .reset :: as => resultsKept false as
  | .issue w :: as =>
    match decode w with
    | .legal (.stres _) => resultsKept false as
    | .legal i => if writesRes i then !waiting && resultsKept true as else resultsKept waiting as
    | .illegal _ => resultsKept waiting as

/-- The checksum commands. -/
def isChecksum : Instr → Bool
  | .crc8 _ _ _ => true
  | .xcrc _ _ => true
  | .xsum _ _ => true
  | _ => false

/-- The command is a `PACK` or a `WRB` into one of the addresses. -/
def writesField (addrs : List Nat) : Instr → Bool
  | .pack a start width imm => (writeAddrs (.pack a start width imm)).any (addrs.contains ·)
  | .wrb a _ => addrs.contains a.toNat
  | _ => false

/-- Checksum last, over the commands of one frame in one cycle: no `PACK` or `WRB` into the bytes a checksum covers after
the checksum (R126). -/
def checksumLast (c : Config) : List Instr → Bool
  | [] => true
  | i :: is => (!isChecksum i || is.all fun j => !writesField (readAddrs c i) j) && checksumLast c is

/-! ### Reference forms -/

/-- The bits of a byte, the most significant first (R34). -/
def bitsMsbFirst (b : Byte) : List Bool := (List.range 8).map fun k => b.getLsbD (7 - k)

/-- One step of the bit-serial CRC register of polynomial `poly`: the bit shifted out, XORed with the message bit, decides
whether `poly` is XORed in. -/
def serialStep (poly c : Byte) (bit : Bool) : Byte :=
  if c.getLsbD 7 != bit then (c <<< 1) ^^^ poly else c <<< 1

/-- The CRC of a message by the bit-serial register with initial value 0xFF, no reflection, and output XOR `fx`: what R63
says `crc8_j1850` is. It uses no table, and has the numbers of R63 written out. -/
def crc8Serial (bytes : List Byte) (fx : Byte) : Byte :=
  (bytes.flatMap bitsMsbFirst).foldl (serialStep 0x1D#8) 0xFF#8 ^^^ fx

/-- The ordinary table-driven CRC with initial value 0xFF and final complement: the second form of R70. -/
def tableCrc (tab : ByteTable) (message : List Byte) : Byte :=
  message.foldl (fun c b => tableAt tab (c ^^^ b)) 0xFF#8 ^^^ 0xFF#8

/-- The product of two polynomials over GF(2), coefficient `i` in bit `i`, the first of degree below `k` (R60). -/
def gf2Mul : Nat → BitVec 16 → BitVec 16 → BitVec 16
  | 0, _, _ => 0
  | k + 1, q, p => (if q.getLsbD k then p <<< k else 0) ^^^ gf2Mul k q p

end Sys2Proof.Machine
end

