-- ==== Sys2Proof/Certificates/Slice0/Obligations.lean ====
section
/-! DEFINITION. The statements about the model, each with the rule of spec/ it rests on. -/

open Sys2Proof Sys2Proof.Machine

/-! ### Encoding -/

/-- Words written out from the fields of R46 and the opcode map of R49 decode to the commands they stand for, and the words
R50 names as illegal do not decode (R46, R47, R49, R50). -/
def Obligations.SampleWordsDecode : Prop :=
  decode 0x0100000000000000#64 = .legal .build ∧
  decode 0x0211077000000000#64 = .legal (.crc8 0x11 7 0x70) ∧
  decode 0x0320010000000000#64 = .legal (.xcrc 0x20 1) ∧
  decode 0x0400000000000000#64 = .legal .seqadv ∧
  decode 0x0510281000002710#64 = .legal (.pack 0x10 40 16 10000) ∧
  decode 0x0640090000000000#64 = .legal (.xsum 0x40 9) ∧
  decode 0x07FDFE0000000000#64 = .legal (.cnxt 253 254) ∧
  decode 0x081100F000000000#64 = .legal (.wrb 0x11 0xF0) ∧
  decode 0x0910000000000000#64 = .legal (.rdb 0x10) ∧
  decode 0x0A10000000000000#64 = .legal (.stres 0x10) ∧
  (decode 0x0000000000000000#64).toOption = none ∧
  (decode 0xFFFFFFFFFFFFFFFF#64).toOption = none ∧
  (decode 0x0B00000000000000#64).toOption = none ∧
  (decode 0x0100000000000001#64).toOption = none

/-- Decoding the word of a command gives the command back, for every command and every operand value (R46, R47, R49). -/
def Obligations.DecodeEncodeRoundTrip : Prop :=
  ∀ i : Instr, decode (encode i) = .legal i

/-- R51: every word either spells exactly one command, which the decoder answers, or is illegal, which the decoder answers;
and the encoding is injective. -/
def Obligations.DecodingTotalEncodingInjective : Prop :=
  (∀ w : Word,
    ((∃ i, decode w = .legal i ∧ encode i = w ∧ ∀ j, encode j = w → j = i) ∧ ¬ ∃ why, decode w = .illegal why) ∨
    ((∃ why, decode w = .illegal why) ∧ ∀ i, encode i ≠ w)) ∧
  ∀ i j : Instr, encode i = encode j → i = j

/-- A word decodes exactly when it matches a row of the opcode map, `w & mask = match`, and then it matches the row of the
command it decodes to and no other: the ten rows are disjoint (R49, R50). -/
def Obligations.OpcodeMapDecides : Prop :=
  ∀ w : Word,
    ((∃ i, decode w = .legal i) ↔ ∃ r ∈ opcodeMap, r.spells w = true) ∧
    ∀ i, decode w = .legal i → ∀ r ∈ opcodeMap, r.spells w = true ↔ r = i.row

/-- Which words are illegal: opcode 0x00 or 0x0B..0xFF, or an assigned opcode with a must-be-zero field that is not zero
(R47, R50). A word with opcode 0x05 never is. -/
def Obligations.IllegalWordsAre : Prop :=
  ∀ w : Word,
    (∃ why, decode w = .illegal why) ↔
      opField w = 0x00 ∨ 0x0B ≤ (opField w).toNat ∨
      (opField w = 0x01 ∧ (aField w ≠ 0 ∨ bField w ≠ 0 ∨ cField w ≠ 0 ∨ immField w ≠ 0)) ∨
      (opField w = 0x02 ∧ immField w ≠ 0) ∨
      (opField w = 0x03 ∧ (cField w ≠ 0 ∨ immField w ≠ 0)) ∨
      (opField w = 0x04 ∧ (aField w ≠ 0 ∨ bField w ≠ 0 ∨ cField w ≠ 0 ∨ immField w ≠ 0)) ∨
      (opField w = 0x06 ∧ (cField w ≠ 0 ∨ immField w ≠ 0)) ∨
      (opField w = 0x07 ∧ (cField w ≠ 0 ∨ immField w ≠ 0)) ∨
      (opField w = 0x08 ∧ (bField w ≠ 0 ∨ immField w ≠ 0)) ∨
      (opField w = 0x09 ∧ (bField w ≠ 0 ∨ cField w ≠ 0 ∨ immField w ≠ 0)) ∨
      (opField w = 0x0A ∧ (bField w ≠ 0 ∨ cField w ≠ 0 ∨ immField w ≠ 0))

/-- The assembler sets the fields of R52 and refuses exactly the operands that do not fit them. -/
def Obligations.AssemblerFields : Prop :=
  AsmLine.build.assemble = some [.build] ∧
  (∀ a l f, (AsmLine.crc8 a l f).assemble = if a ≤ 255 ∧ l ≤ 255 ∧ f ≤ 255
    then some [.crc8 (BitVec.ofNat 8 a) (BitVec.ofNat 8 l) (BitVec.ofNat 8 f)] else none) ∧
  (∀ a t, (AsmLine.xcrc a t).assemble = if a ≤ 255 ∧ t ≤ 255
    then some [.xcrc (BitVec.ofNat 8 a) (BitVec.ofNat 8 t)] else none) ∧
  AsmLine.seqadv.assemble = some [.seqadv] ∧
  (∀ a p w v, (AsmLine.pack a p w v).assemble = if a ≤ 255 ∧ p ≤ 255 ∧ w ≤ 255 ∧ v ≤ 2 ^ 32 - 1
    then some [.pack (BitVec.ofNat 8 a) (BitVec.ofNat 8 p) (BitVec.ofNat 8 w) (BitVec.ofNat 32 v)] else none) ∧
  (∀ a l, (AsmLine.xsum a l).assemble = if a ≤ 255 ∧ l ≤ 255
    then some [.xsum (BitVec.ofNat 8 a) (BitVec.ofNat 8 l)] else none) ∧
  (∀ v m, (AsmLine.cnxt v m).assemble = if v ≤ 255 ∧ 1 ≤ m ∧ m ≤ 256
    then some [.cnxt (BitVec.ofNat 8 v) (BitVec.ofNat 8 (m % 256))] else none) ∧
  (∀ a b, (AsmLine.wrb a b).assemble = if a ≤ 255 ∧ b ≤ 255
    then some [.wrb (BitVec.ofNat 8 a) (BitVec.ofNat 8 b)] else none) ∧
  (∀ a, (AsmLine.rdb a).assemble = if a ≤ 255 then some [.rdb (BitVec.ofNat 8 a)] else none) ∧
  (∀ a, (AsmLine.stres a).assemble = if a ≤ 255 then some [.stres (BitVec.ofNat 8 a)] else none)

/-! ### The step, the host and reset -/

/-- When the next word the host issues decodes to a command, the step is `exec` of that command in the state without that
word (R3, R12, R54). That the host's coming words stand in `inbox` is the model's own (notes/assumptions/8.md). -/
def Obligations.StepRunsDecodedCommand : Prop :=
  ∀ (s : State) (w : Word) (rest : List HostAction) (i : Instr),
    s.inbox = .issue w :: rest → decode w = .legal i →
      step s = execWord w { s with inbox := rest } ∧ step s = exec i { s with inbox := rest }

/-- The state that `withFetchWord` gives runs the command whose word it was given, and the table's decoder reads that
command from the word. How the host's word reaches the step is the model's own (notes/assumptions/8.md and 9.md). -/
def Obligations.FetchedWordRuns : Prop :=
  ∀ (s : State) (i : Instr),
    decodeTableWord 64 (encode i).toNat = some i ∧ step (s.withFetchWord 64 (encode i).toNat) = exec i s

/-- An illegal word raises `IllegalCommand`, code 1, records itself in `FCMD`, and changes no other state (R50, R100,
R101). -/
def Obligations.IllegalWordRaises : Prop :=
  ∀ (s : State) (w : Word) (why : IllegalWord), decode w = .illegal why → s.fault = 0 →
    execWord w s = .next { s with fault := 1, fcmd := w }

/-- A register read between two commands returns the current value and changes nothing; without any action of the host
nothing changes. That the host's actions stand in `inbox` is the model's own (notes/assumptions/8.md and 12.md). -/
def Obligations.HostReadsChangeNothing : Prop :=
  ∀ (s : State) (rest : List HostAction),
    (∀ r, s.inbox = .read r :: rest → step s = .next { s with inbox := rest }) ∧
    (s.inbox = [] → step s = .next s) ∧
    s.hostRead .res = s.res ∧ s.hostRead .seq = s.seq ∧ s.hostRead .tabv = BitVec.ofBool s.tabv ∧
    s.hostRead .fault = s.fault ∧ s.hostRead .fcmd = s.fcmd

/-- Reset, asserted between two commands in any state, halted or not: the registers take the values of R24, the
configuration is untouched, and the block is not halted (R24, R120). That the host's actions stand in `inbox` is the model's
own (notes/assumptions/8.md and 13.md). -/
def Obligations.ResetAction : Prop :=
  ∀ (s : State) (rest : List HostAction), s.inbox = .reset :: rest →
    ∃ t, step s = .next t ∧ t.tabv = false ∧ t.seq = s.cfg.seqReset ∧ t.res = 0 ∧ t.fault = 0 ∧ t.fcmd = 0 ∧
      t.cfg = s.cfg ∧ t.inbox = rest ∧ t.halted = false

/-- The power-on state holds the reset values of R24. -/
def Obligations.PowerOnRegisters : Prop :=
  State.reset.tabv = false ∧ State.reset.seq = State.reset.cfg.seqReset ∧ State.reset.res = 0 ∧
    State.reset.fault = 0 ∧ State.reset.fcmd = 0 ∧ State.reset.halted = false

/-- Every command and every step answers a next state, in every state: R9 says that a command either completes or raises a
fault. R9 speaks of commands alone. That a raised fault is a next state too is the model's own (notes/assumptions/1.md), and
so is a step of an idle block, whose host has no action to come (notes/assumptions/8.md). -/
def Obligations.EveryStepAnswersNext : Prop :=
  (∀ (i : Instr) (s : State), ∃ t, exec i s = .next t) ∧ ∀ s : State, ∃ t, step s = .next t

/-- While `FAULT` is not 0 every word, legal or not, is ignored and changes no state at all; the host can still read
registers; only reset clears `FAULT` (R103). That the host's actions stand in `inbox`, from which each step takes one, is the
model's own (notes/assumptions/8.md and 11.md). -/
def Obligations.HaltedIgnoresEveryWord : Prop :=
  ∀ (s : State) (rest : List HostAction), s.fault ≠ 0 →
    (∀ w, execWord w s = .next s) ∧
    (∀ w, s.inbox = .issue w :: rest → step s = .next { s with inbox := rest }) ∧
    (∀ r, s.inbox = .read r :: rest → step s = .next { s with inbox := rest }) ∧
    (∀ t, step s = .next t → t.fault = 0 → ∃ more, s.inbox = .reset :: more) ∧
    (s.inbox = .reset :: rest → ∃ t, step s = .next t ∧ t.fault = 0)

/-! ### Faults -/

/-- The codes of the five faults (R100). -/
def Obligations.FaultCodes : Prop :=
  FaultCause.code .illegalCommand = 1 ∧ FaultCause.code .badOperand = 2 ∧ FaultCause.code .badFrameType = 3 ∧
    FaultCause.code .tableNotBuilt = 4 ∧ FaultCause.code .addressRange = 5

/-- R101: a command word that raises a fault while `FAULT` is 0 writes the code of a cause to `FAULT` and itself to `FCMD`,
changes nothing else, and leaves the block halted: every word after it is ignored. -/
def Obligations.FaultEntry : Prop :=
  ∀ (s t : State) (w : Word), s.fault = 0 → execWord w s = .next t → t.fault ≠ 0 →
    (∃ cause : FaultCause, t.fault = cause.code) ∧ t = { s with fault := t.fault, fcmd := w } ∧
      t.halted = true ∧ ∀ w', execWord w' t = .next t

/-- A command raises the fault with the lowest code among those whose condition holds, and raises none when none does (R100,
R104). The conditions are those of R100, with the range condition as R31 and R64 state it: a range of length zero that starts
above `MSIZE` meets it, although R100 speaks of a byte outside `M`; that reading is the model's own
(notes/assumptions/14.md). -/
def Obligations.LowestFaultWins : Prop :=
  ∀ (i : Instr) (s : State), s.fault = 0 →
    match faultDue s i with
    | some cause => exec i s = .next { s with fault := cause.code, fcmd := encode i }
    | none => ∃ t, exec i s = .next t ∧ t.fault = 0 ∧ t.fcmd = s.fcmd

/-! ### Invariants -/

/-- Every step keeps the legal states: `M` inside `MSIZE`, `FAULT` a code the block writes, `FCMD` 0 while `FAULT` is 0, a
valid `TAB` holding `j1850_entry` (R16, R17, R30, R100), and the list that holds `M` in its canonical form, which is the
model's own (notes/assumptions/5.md). -/
def Obligations.LegalStatesKept : Prop :=
  ∀ s t : State, s.Inv → step s = .next t → t.Inv

/-- The power-on state is legal. -/
def Obligations.PowerOnLegal : Prop := State.reset.Inv

/-- Every step keeps the fault record true: `FAULT` and `FCMD` tell the cause and the word of the fault since reset (R16,
R101, R103). The conditions of the causes are those of `LowestFaultWins`, with the range condition of R31
(notes/assumptions/14.md). -/
def Obligations.FaultRecordKept : Prop :=
  ∀ s t : State, s.FaultRecorded → step s = .next t → t.FaultRecorded

/-- The power-on state has a true fault record. -/
def Obligations.PowerOnFaultRecord : Prop := State.reset.FaultRecorded

/-- No step changes the configuration: the tables are never written and reset does not touch them (R18, R19, R20, R24). That
`State` carries them is the model's own (notes/assumptions/2.md). -/
def Obligations.ConfigurationConstant : Prop :=
  ∀ s t : State, step s = .next t → t.cfg = s.cfg

/-- Only `SEQADV` and reset change `SEQ` (R14, R72, R73). -/
def Obligations.SequenceCounterWriters : Prop :=
  ∀ s t : State, step s = .next t → t.seq ≠ s.seq →
    (∃ rest, s.inbox = .issue (encode .seqadv) :: rest ∧ s.fault = 0 ∧ t.seq = s.seq + 1) ∨
    (∃ rest, s.inbox = .reset :: rest ∧ t.seq = s.cfg.seqReset)

/-- Only `BUILD` and reset change `TAB` or `TABV`; no command clears `TABV` (R13, R17). -/
def Obligations.TableWriters : Prop :=
  ∀ s t : State, step s = .next t → ¬ (t.tab = s.tab ∧ t.tabv = s.tabv) →
    (∃ rest, s.inbox = .issue (encode .build) :: rest ∧ s.fault = 0 ∧ t.tabv = true) ∨
    (∃ rest, s.inbox = .reset :: rest ∧ t.tabv = false)

/-- Only `CRC8`, `XCRC`, `XSUM`, `CNXT` and `RDB` overwrite `RES`; no other command changes it, and a command that raises a
fault leaves it as it was (R15). -/
def Obligations.ResultRegisterWriters : Prop :=
  ∀ (i : Instr) (s t : State), exec i s = .next t → writesRes i = false ∨ t.fault ≠ 0 → t.res = s.res

/-- A command leaves every byte of `M` outside the bytes it writes (R36) as it was, and the commands that write no byte
leave all of them (R36, R93). -/
def Obligations.MemoryFrame : Prop :=
  ∀ (i : Instr) (s t : State) (x : Nat), exec i s = .next t → x ∉ writeAddrs i → t.byteAt x = s.byteAt x

/-! ### Non-interference -/

/-- What a command does depends on the registers, the configuration and the bytes it reads (R36), on nothing else: not on
any other byte of `M` (R9, R25, R36, R65). `TAB` counts only when `TABV` is 1 (R17). -/
def Obligations.ReadBytesDetermineEffect : Prop :=
  ∀ (i : Instr) (s₁ s₂ t₁ t₂ : State),
    s₁.cfg = s₂.cfg → s₁.tabv = s₂.tabv → (s₁.tabv = true → s₁.tab = s₂.tab) → s₁.seq = s₂.seq → s₁.res = s₂.res →
    s₁.fault = s₂.fault → s₁.fcmd = s₂.fcmd → (∀ x ∈ readAddrs s₁.cfg i, s₁.byteAt x = s₂.byteAt x) →
    exec i s₁ = .next t₁ → exec i s₂ = .next t₂ →
      t₁.tabv = t₂.tabv ∧ (t₁.tabv = true → t₁.tab = t₂.tab) ∧ t₁.seq = t₂.seq ∧ t₁.res = t₂.res ∧
      t₁.fault = t₂.fault ∧ t₁.fcmd = t₂.fcmd ∧ (t₁.fault = 0 → ∀ x ∈ writeAddrs i, t₁.byteAt x = t₂.byteAt x)

/-- The result of `CRC8` depends on the message bytes and the final-XOR constant alone: not on `SEQ`, on `RES`, on earlier
commands, or on where in `M` the message stands (R65). -/
def Obligations.Crc8Pure : Prop :=
  ∀ (a₁ a₂ b c : Byte) (s₁ s₂ : State), s₁.Inv → s₂.Inv → s₁.fault = 0 → s₂.fault = 0 →
    s₁.tabv = true → s₂.tabv = true → a₁.toNat + b.toNat ≤ s₁.cfg.msize → a₂.toNat + b.toNat ≤ s₂.cfg.msize →
    s₁.bytesAt a₁.toNat b.toNat = s₂.bytesAt a₂.toNat b.toNat →
      ∃ r, exec (.crc8 a₁ b c) s₁ = .next { s₁ with res := r } ∧ exec (.crc8 a₂ b c) s₂ = .next { s₂ with res := r }

/-- A program that seeds every byte before it reads it does the same from every member of the family of reset states: two
states that agree on the registers and on the bytes already written end with the same registers, and, in a clean run, with
the same bytes wherever the program wrote (R121, R122). -/
def Obligations.SeededProgramIndependentOfResetContents : Prop :=
  ∀ (prog : List Instr) (written : List Nat) (s₁ s₂ : State),
    s₁.cfg = s₂.cfg → s₁.tabv = s₂.tabv → (s₁.tabv = true → s₁.tab = s₂.tab) → s₁.seq = s₂.seq → s₁.res = s₂.res →
    s₁.fault = s₂.fault → s₁.fcmd = s₂.fcmd → (∀ x ∈ written, s₁.byteAt x = s₂.byteAt x) →
    seededFrom s₁.cfg written prog = true →
      (runCommands prog s₁).tabv = (runCommands prog s₂).tabv ∧
      (runCommands prog s₁).seq = (runCommands prog s₂).seq ∧
      (runCommands prog s₁).res = (runCommands prog s₂).res ∧
      (runCommands prog s₁).fault = (runCommands prog s₂).fault ∧
      (runCommands prog s₁).fcmd = (runCommands prog s₂).fcmd ∧
      (∀ x ∈ written, (runCommands prog s₁).byteAt x = (runCommands prog s₂).byteAt x) ∧
      (CleanRun prog s₁ →
        ∀ i ∈ prog, ∀ x ∈ writeAddrs i, (runCommands prog s₁).byteAt x = (runCommands prog s₂).byteAt x)

/-! ### Runs -/

/-- A run of the machine on the words of a program is the left fold of the commands over the state (R12). That the host's
words stand in `inbox`, from which each step takes one until none is left, is the model's own (notes/assumptions/8.md). -/
def Obligations.RunIsFoldOfCommands : Prop :=
  ∀ (prog : List Instr) (s : State), s.inbox = [] →
    Host.Core.run Sys2Proof.core prog.length (s.issuing prog) = .next (runCommands prog s)

/-- A program that builds the table before its first `CRC8` never raises `TableNotBuilt` (R122, R124). -/
def Obligations.BuiltFirstNeverTableFault : Prop :=
  ∀ (prog : List Instr) (s : State), s.fault = 0 → tableBuiltFirst prog = true →
    (runCommands prog s).fault ≠ FaultCause.code .tableNotBuilt

/-- In a cycle with one `SEQADV` after its last `XCRC`, every `XCRC` sees the counter value the cycle began with, and a
clean cycle ends with the counter advanced by one (R73, R123). -/
def Obligations.CounterStableInCycle : Prop :=
  ∀ (cycle : List Instr) (s : State), oneAdvanceAtEnd cycle = true →
    (∀ before after a t, cycle = before ++ .xcrc a t :: after → (runCommands before s).seq = s.seq) ∧
    (CleanRun cycle s → (runCommands cycle s).seq = s.seq + 1)

/-- A byte written by `WRB` is what a later `RDB` of it returns, whatever commands stand between that do not write it, in
a clean run (R37, R40). -/
def Obligations.ReadReturnsLatestWrite : Prop :=
  ∀ (a c : Byte) (between : List Instr) (s : State), (∀ i ∈ between, a.toNat ∉ writeAddrs i) →
    CleanRun (.wrb a c :: between ++ [.rdb a]) s → (runCommands (.wrb a c :: between ++ [.rdb a]) s).res = c

/-- `WRBS` seeds a buffer: its commands write the listed bytes to consecutive addresses and change nothing else (R53,
R90, R93). -/
def Obligations.SeedingWritesBuffer : Prop :=
  ∀ (addr : Nat) (bytes : List Nat) (cmds : List Instr) (s : State),
    (AsmLine.wrbs addr bytes).assemble = some cmds → s.fault = 0 → addr + bytes.length ≤ s.cfg.msize →
      (runCommands cmds s).bytesAt addr bytes.length = bytes.map (BitVec.ofNat 8) ∧
      (∀ x, x < addr ∨ addr + bytes.length ≤ x → (runCommands cmds s).byteAt x = s.byteAt x) ∧
      { runCommands cmds s with mem := s.mem } = s

/-- `PACKBE16` stores a 16-bit value most significant byte first and changes nothing else (R53, R82). -/
def Obligations.BigEndianPack : Prop :=
  ∀ (addr off value : Nat) (cmds : List Instr) (s : State),
    (AsmLine.packbe16 addr off value).assemble = some cmds → s.fault = 0 → addr + off + 1 < s.cfg.msize →
      ((runCommands cmds s).byteAt (addr + off)).toNat = value / 256 ∧
      ((runCommands cmds s).byteAt (addr + off + 1)).toNat = value % 256 ∧
      (∀ x, x ≠ addr + off → x ≠ addr + off + 1 → (runCommands cmds s).byteAt x = s.byteAt x) ∧
      { runCommands cmds s with mem := s.mem } = s

/-! ### The CRC8 unit -/

/-- R60: `j1850_entry(i)` is eight steps of the division, it is the remainder of `i(x) * x^8` divided by
`x^8 + x^4 + x^3 + x^2 + 1` over GF(2), and it has the five values the rule lists. -/
def Obligations.J1850EntryIsRemainder : Prop :=
  (∀ i : Byte, j1850Entry i =
    (fun c : Byte => if c.getLsbD 7 = true then ((c <<< 1) &&& 0xFF#8) ^^^ 0x1D#8 else (c <<< 1) &&& 0xFF#8)^[8] i) ∧
  (∀ i : Byte, ∃ q : Byte,
    gf2Mul 8 (q.setWidth 16) 0x11D#16 ^^^ (j1850Entry i).setWidth 16 = i.setWidth 16 <<< 8) ∧
  j1850Entry 0x00 = 0x00 ∧ j1850Entry 0x01 = 0x1D ∧ j1850Entry 0x02 = 0x3A ∧ j1850Entry 0x80 = 0x26 ∧
  j1850Entry 0xFF = 0xC4

/-- R61: `BUILD` is the word 0x0100000000000000 and no other word of opcode 0x01; it fills `TAB` with `j1850_entry`, sets
`TABV`, and changes nothing else; a second `BUILD` changes nothing; another word of that opcode raises `IllegalCommand`. -/
def Obligations.BuildFillsTable : Prop :=
  encode .build = 0x0100000000000000#64 ∧
  j1850Entry 0x0F = 0xBB ∧ j1850Entry 0xFF = 0xC4 ∧
  ∀ s : State, s.fault = 0 →
    (∀ w, opField w = 0x01 → w ≠ encode .build → execWord w s = .next { s with fault := 1, fcmd := w }) ∧
    ∃ t, exec .build s = .next t ∧ (∀ i : Byte, tableAt t.tab i = j1850Entry i) ∧ t.tabv = true ∧
      { t with tab := s.tab, tabv := s.tabv } = s ∧ exec .build t = .next t

/-- `CRC8` of a built table leaves in `RES` the bit-serial CRC of the message, the bytes in ascending order and each most
significant bit first, with initial register 0xFF, no reflection, and output XOR `C`; it changes nothing else (R32, R34,
R63, R64). -/
def Obligations.Crc8IsSerialCrc : Prop :=
  ∀ (a b c : Byte) (s : State), s.Inv → s.fault = 0 → s.tabv = true → a.toNat + b.toNat ≤ s.cfg.msize →
    exec (.crc8 a b c) s = .next { s with res := crc8Serial (s.bytesAt a.toNat b.toNat) c }

/-- For messages of one length and any final-XOR constant, `crc8(a) ^ crc8(b) ^ crc8(a ^ b) = crc8(zeros)`: the linearity
check of 95_test_vectors.md V2, of the function of R63 over the table of R61. -/
def Obligations.Crc8Linear : Prop :=
  ∀ (x y : List Byte) (fx : Byte), x.length = y.length →
    crc8J1850 j1850Table x fx ^^^ crc8J1850 j1850Table y fx ^^^
        crc8J1850 j1850Table (List.zipWith (· ^^^ ·) x y) fx =
      crc8J1850 j1850Table (List.replicate x.length 0) fx

/-! ### The XCRC unit -/

/-- `XCRC` leaves in `RES` the table-driven CRC, with initial value 0xFF and final complement, of the message
`[hn | SEQ] ++ data ++ [Kennung entry]`, the second form of R70, where `data` are the bytes at `A + off` in the order of the
descriptor's list; it changes nothing else, `SEQ` included (R70, R71, R74). -/
def Obligations.XcrcIsTableCrc : Prop :=
  ∀ (a t : Byte) (s : State) (d : FrameType) (ken : KennungTable),
    s.cfg.tables.xd[t.toNat]? = some d → s.cfg.tables.ken[d.kidx]? = some ken → s.fault = 0 →
    (∀ off ∈ d.offs, a.toNat + off.val < s.cfg.msize) →
      exec (.xcrc a t) s = .next
        { s with
          res := tableCrc s.cfg.xtab
            ([d.hn ||| s.seq.setWidth 8] ++ d.offs.map (fun off => s.byteAt (a.toNat + off.val)) ++
              [kennungAt ken s.seq]) }

/-- R72: `SEQADV` is the word 0x0400000000000000 and no other word of opcode 0x04; it adds one to `SEQ` modulo 16 and changes
nothing else; `n` of them add `n`, so sixteen return `SEQ` to the value it had; no other command changes `SEQ`; another word
of that opcode raises `IllegalCommand`. -/
def Obligations.SeqadvCounts : Prop :=
  encode .seqadv = 0x0400000000000000#64 ∧
  ∀ s : State, s.fault = 0 →
    (∀ w, opField w = 0x04 → w ≠ encode .seqadv → execWord w s = .next { s with fault := 1, fcmd := w }) ∧
    exec .seqadv s = .next { s with seq := BitVec.ofNat 4 ((s.seq.toNat + 1) % 16) } ∧
    (∀ n, runCommands (List.replicate n .seqadv) s = { s with seq := BitVec.ofNat 4 (s.seq.toNat + n) }) ∧
    runCommands (List.replicate 16 .seqadv) s = s ∧
    ∀ i t, i ≠ .seqadv → exec i s = .next t → t.seq = s.seq

/-! ### The pack unit -/

/-- `PACK` with a legal width and its last byte in `M` writes bit `i` of `IMM` to buffer bit `s + i`, for each `i` below the
width, where buffer bit `p` of base `A` is bit `8 * A + p` of `M`; every other bit of `M` and every other state stays (R33,
R80, R81). -/
def Obligations.PackWritesField : Prop :=
  ∀ (a start width : Byte) (imm : BitVec 32) (s : State), s.fault = 0 → 1 ≤ width.toNat → width.toNat ≤ 32 →
    a.toNat + (start.toNat + width.toNat - 1) / 8 < s.cfg.msize →
      ∃ t, exec (.pack a start width imm) s = .next t ∧
        (∀ x k, k < 8 → (t.byteAt x).getLsbD k =
          if 8 * a.toNat + start.toNat ≤ 8 * x + k ∧ 8 * x + k < 8 * a.toNat + start.toNat + width.toNat
          then imm.getLsbD (8 * x + k - (8 * a.toNat + start.toNat)) else (s.byteAt x).getLsbD k) ∧
        { t with mem := s.mem } = s

/-- Bits of `IMM` at and above the width are ignored: a completing `PACK` of two values with the same low bits does the same
(R48, R81, R87). -/
def Obligations.PackTruncates : Prop :=
  ∀ (a start width : Byte) (imm₁ imm₂ : BitVec 32) (s : State), s.fault = 0 → 1 ≤ width.toNat → width.toNat ≤ 32 →
    a.toNat + (start.toNat + width.toNat - 1) / 8 < s.cfg.msize →
    imm₁.toNat % 2 ^ width.toNat = imm₂.toNat % 2 ^ width.toNat →
      exec (.pack a start width imm₁) s = exec (.pack a start width imm₂) s

/-- `XSUM` leaves in each bit of `RES` the parity of that bit over the bytes of the range, 0 for an empty range, and changes
nothing else (R83). -/
def Obligations.XsumIsParity : Prop :=
  ∀ (a b : Byte) (s : State), s.fault = 0 → a.toNat + b.toNat ≤ s.cfg.msize →
    ∃ r : Byte, exec (.xsum a b) s = .next { s with res := r } ∧
      ∀ k < 8, r.getLsbD k = decide ((s.bytesAt a.toNat b.toNat).countP (fun v => v.getLsbD k) % 2 = 1)

/-- A serial frame whose last byte is the attached checksum XORs to zero over all its bytes (R83). -/
def Obligations.AttachedXsumIsZero : Prop :=
  ∀ (a b : Byte) (s : State), s.fault = 0 → b.toNat < 255 → a.toNat + b.toNat < s.cfg.msize →
    (runCommands [.xsum a b, .stres (a + b), .xsum a (b + 1)] s).res = 0 ∧
    (runCommands [.xsum a b, .stres (a + b), .xsum a (b + 1)] s).fault = 0

/-- R84: `CNXT v, B` is the word `0x07 || v || B || 0 || 0`; with `m` 256 for code 0 and the code otherwise, it leaves in
`RES` 0 if `v + 1 >= m` and `v + 1` otherwise, which is the successor modulo `m` of a value below `m` and 0 for any other;
it changes nothing else and raises no fault; a word of that opcode with `C` or `IMM` not zero raises `IllegalCommand`. -/
def Obligations.CnxtSuccessor : Prop :=
  ∀ s : State, s.fault = 0 →
    (∀ w, opField w = 0x07 → cField w ≠ 0 ∨ immField w ≠ 0 → execWord w s = .next { s with fault := 1, fcmd := w }) ∧
    ∀ (v code : Byte) (m : Nat), m = (if code = 0 then 256 else code.toNat) →
      encode (.cnxt v code) = 0x07#8 ++ v ++ code ++ 0#8 ++ 0#32 ∧
      ∃ r : Byte, exec (.cnxt v code) s = .next { s with res := r } ∧
        r.toNat = (if v.toNat + 1 ≥ m then 0 else v.toNat + 1) ∧
        (v.toNat < m → r.toNat = (v.toNat + 1) % m) ∧ (m ≤ v.toNat → r = 0)

/-- A counter of modulus `m` stepped `m` times with `CNXT` from a value below `m` returns to that value, and never leaves
`0, ..., m-1` on the way (R84, R85). -/
def Obligations.CnxtPeriod : Prop :=
  ∀ (v code : Byte) (s : State) (m : Nat), s.fault = 0 → m = (if code = 0 then 256 else code.toNat) → v.toNat < m →
    (∀ n, ((fun x : Byte => (runCommands [.cnxt x code] s).res)^[n] v).toNat = (v.toNat + n) % m) ∧
    (fun x : Byte => (runCommands [.cnxt x code] s).res)^[m] v = v

/-! ### Buffer access -/

/-- R90: `WRB A, C` is the word `0x08 || A || 0 || C || 0`; it writes `C` to `M[A]` and changes nothing else, or raises
`AddressRange` when `A >= MSIZE`; a word of that opcode with `B` or `IMM` not zero raises `IllegalCommand`. -/
def Obligations.WrbWritesByte : Prop :=
  ∀ s : State, s.fault = 0 →
    (∀ w, opField w = 0x08 → bField w ≠ 0 ∨ immField w ≠ 0 → execWord w s = .next { s with fault := 1, fcmd := w }) ∧
    ∀ a c : Byte,
      encode (.wrb a c) = 0x08#8 ++ a ++ 0#8 ++ c ++ 0#32 ∧
      (s.cfg.msize ≤ a.toNat → exec (.wrb a c) s = .next { s with fault := 5, fcmd := encode (.wrb a c) }) ∧
      (a.toNat < s.cfg.msize →
        ∃ t, exec (.wrb a c) s = .next t ∧ t.byteAt a.toNat = c ∧ (∀ x, x ≠ a.toNat → t.byteAt x = s.byteAt x) ∧
          { t with mem := s.mem } = s)

/-- R91: `RDB A` is the word `0x09 || A || 0 || 0 || 0`; it reads `M[A]` into `RES` and changes nothing else, or raises
`AddressRange` when `A >= MSIZE`; a word of that opcode with `B`, `C` or `IMM` not zero raises `IllegalCommand`. -/
def Obligations.RdbReadsByte : Prop :=
  ∀ s : State, s.fault = 0 →
    (∀ w, opField w = 0x09 → bField w ≠ 0 ∨ cField w ≠ 0 ∨ immField w ≠ 0 →
      execWord w s = .next { s with fault := 1, fcmd := w }) ∧
    ∀ a : Byte,
      encode (.rdb a) = 0x09#8 ++ a ++ 0#8 ++ 0#8 ++ 0#32 ∧
      (s.cfg.msize ≤ a.toNat → exec (.rdb a) s = .next { s with fault := 5, fcmd := encode (.rdb a) }) ∧
      (a.toNat < s.cfg.msize → exec (.rdb a) s = .next { s with res := s.byteAt a.toNat })

/-- R92: `STRES A` is the word `0x0A || A || 0 || 0 || 0`; it writes `RES` to `M[A]` and changes nothing else, `RES`
included, or raises `AddressRange` when `A >= MSIZE`; a word of that opcode with `B`, `C` or `IMM` not zero raises
`IllegalCommand`. -/
def Obligations.StresStoresResult : Prop :=
  ∀ s : State, s.fault = 0 →
    (∀ w, opField w = 0x0A → bField w ≠ 0 ∨ cField w ≠ 0 ∨ immField w ≠ 0 →
      execWord w s = .next { s with fault := 1, fcmd := w }) ∧
    ∀ a : Byte,
      encode (.stres a) = 0x0A#8 ++ a ++ 0#8 ++ 0#8 ++ 0#32 ∧
      (s.cfg.msize ≤ a.toNat → exec (.stres a) s = .next { s with fault := 5, fcmd := encode (.stres a) }) ∧
      (a.toNat < s.cfg.msize →
        ∃ t, exec (.stres a) s = .next t ∧ t.byteAt a.toNat = s.res ∧ (∀ x, x ≠ a.toNat → t.byteAt x = s.byteAt x) ∧
          { t with mem := s.mem } = s)
end

