-- ==== Sys2Proof/Laws/Encoding.lean ====
section
/-! SUPPORT. The fields of a joined word, and the word joined from its fields (30_encoding.md R46). -/

namespace Sys2Proof

theorem opField_joinFields (o a b c : Byte) (i : BitVec 32) : opField (joinFields o a b c i) = o := by
  apply BitVec.eq_of_getLsbD_eq
  intro k hk
  simp only [opField, joinFields, BitVec.getLsbD_extractLsb', BitVec.getLsbD_append]
  simp [hk, show ¬ 56 + k < 32 by omega, show ¬ 56 + k - 32 < 8 by omega, show ¬ 56 + k - 40 < 8 by omega,
    show ¬ 56 + k - 48 < 8 by omega, show 56 + k - 56 = k by omega, Nat.sub_sub]

theorem aField_joinFields (o a b c : Byte) (i : BitVec 32) : aField (joinFields o a b c i) = a := by
  apply BitVec.eq_of_getLsbD_eq
  intro k hk
  simp only [aField, joinFields, BitVec.getLsbD_extractLsb', BitVec.getLsbD_append]
  simp [hk, show ¬ 48 + k < 32 by omega, show ¬ 48 + k - 32 < 8 by omega, show ¬ 48 + k - 40 < 8 by omega,
    show 48 + k - 48 = k by omega, Nat.sub_sub]

theorem bField_joinFields (o a b c : Byte) (i : BitVec 32) : bField (joinFields o a b c i) = b := by
  apply BitVec.eq_of_getLsbD_eq
  intro k hk
  simp only [bField, joinFields, BitVec.getLsbD_extractLsb', BitVec.getLsbD_append]
  simp [hk, show ¬ 40 + k < 32 by omega, show ¬ 40 + k - 32 < 8 by omega,
    show 40 + k - 40 = k by omega, Nat.sub_sub]

theorem cField_joinFields (o a b c : Byte) (i : BitVec 32) : cField (joinFields o a b c i) = c := by
  apply BitVec.eq_of_getLsbD_eq
  intro k hk
  simp only [cField, joinFields, BitVec.getLsbD_extractLsb', BitVec.getLsbD_append]
  simp [hk, show ¬ 32 + k < 32 by omega, show 32 + k - 32 = k by omega]

theorem immField_joinFields (o a b c : Byte) (i : BitVec 32) : immField (joinFields o a b c i) = i := by
  apply BitVec.eq_of_getLsbD_eq
  intro k hk
  simp only [immField, joinFields, BitVec.getLsbD_extractLsb', BitVec.getLsbD_append]
  simp [hk]

/-- A word is `OP || A || B || C || IMM` (R46). -/
theorem joinFields_fields (w : Word) :
    joinFields (opField w) (aField w) (bField w) (cField w) (immField w) = w := by
  apply BitVec.eq_of_getLsbD_eq
  intro k hk
  simp only [opField, aField, bField, cField, immField, joinFields, BitVec.getLsbD_extractLsb', BitVec.getLsbD_append]
  by_cases h1 : k < 32
  · simp [h1]
  by_cases h2 : k < 40
  · simp [h1, show k - 32 < 8 by omega, show 32 + (k - 32) = k by omega]
  by_cases h3 : k < 48
  · simp [h1, show ¬ k - 32 < 8 by omega, show k - 32 - 8 < 8 by omega, show 40 + (k - 32 - 8) = k by omega]
  by_cases h4 : k < 56
  · simp [h1, show ¬ k - 32 < 8 by omega, show ¬ k - 32 - 8 < 8 by omega, show k - 32 - 8 - 8 < 8 by omega,
      show 48 + (k - 32 - 8 - 8) = k by omega]
  · simp [h1, show ¬ k - 32 < 8 by omega, show ¬ k - 32 - 8 < 8 by omega, show ¬ k - 32 - 8 - 8 < 8 by omega,
      show k - 32 - 8 - 8 - 8 < 8 by omega, show 56 + (k - 32 - 8 - 8 - 8) = k by omega]

/-- A bitwise AND of joined words is joined field by field. -/
theorem joinFields_and (o a b c o' a' b' c' : Byte) (i i' : BitVec 32) :
    joinFields o a b c i &&& joinFields o' a' b' c' i' =
      joinFields (o &&& o') (a &&& a') (b &&& b') (c &&& c') (i &&& i') := by
  simp only [joinFields, ← BitVec.and_append]

/-- Two joined words are equal exactly when their fields are. -/
theorem joinFields_inj {o a b c o' a' b' c' : Byte} {i i' : BitVec 32} :
    joinFields o a b c i = joinFields o' a' b' c' i' ↔ o = o' ∧ a = a' ∧ b = b' ∧ c = c' ∧ i = i' := by
  constructor
  · intro h
    exact ⟨by simpa only [opField_joinFields] using congrArg opField h,
      by simpa only [aField_joinFields] using congrArg aField h,
      by simpa only [bField_joinFields] using congrArg bField h,
      by simpa only [cField_joinFields] using congrArg cField h,
      by simpa only [immField_joinFields] using congrArg immField h⟩
  · rintro ⟨rfl, rfl, rfl, rfl, rfl⟩; rfl

/-- A mask that covers every field whole or not at all keeps the covered fields and clears the others. -/
theorem joinFields_and_mask {o a b c mo ma mb mc ro ra rb rc : Byte} {i mi ri : BitVec 32} {mask result : Word}
    (hm : mask = joinFields mo ma mb mc mi) (hr : result = joinFields ro ra rb rc ri)
    (ho : o &&& mo = ro) (ha : a &&& ma = ra) (hb : b &&& mb = rb) (hc : c &&& mc = rc) (hi : i &&& mi = ri) :
    joinFields o a b c i &&& mask = result := by
  rw [hm, hr, joinFields_and, ho, ha, hb, hc, hi]

end Sys2Proof
end

