-- ==== Sys2Proof/Laws/State.lean ====
section
/-! SUPPORT. One lemma per field per update of the state: no later proof unfolds a record update. -/

namespace Sys2Proof.Machine

variable (s : State)

/-! ### `setTable` -/

@[simp] theorem State.setTable_cfg (t : ByteTable) : (s.setTable t).cfg = s.cfg := rfl

@[simp] theorem State.setTable_mem (t : ByteTable) : (s.setTable t).mem = s.mem := rfl

@[simp] theorem State.setTable_tab (t : ByteTable) : (s.setTable t).tab = t := rfl

@[simp] theorem State.setTable_tabv (t : ByteTable) : (s.setTable t).tabv = true := rfl

@[simp] theorem State.setTable_seq (t : ByteTable) : (s.setTable t).seq = s.seq := rfl

@[simp] theorem State.setTable_res (t : ByteTable) : (s.setTable t).res = s.res := rfl

@[simp] theorem State.setTable_fault (t : ByteTable) : (s.setTable t).fault = s.fault := rfl

@[simp] theorem State.setTable_fcmd (t : ByteTable) : (s.setTable t).fcmd = s.fcmd := rfl

@[simp] theorem State.setTable_inbox (t : ByteTable) : (s.setTable t).inbox = s.inbox := rfl

@[simp] theorem State.setTable_resets (t : ByteTable) : (s.setTable t).resets = s.resets := rfl

/-! ### `writeByte` -/

@[simp] theorem State.writeByte_cfg (a : Nat) (v : Byte) : (s.writeByte a v).cfg = s.cfg := rfl

@[simp] theorem State.writeByte_mem (a : Nat) (v : Byte) : (s.writeByte a v).mem = Memory.store s.mem a v := rfl

@[simp] theorem State.writeByte_tab (a : Nat) (v : Byte) : (s.writeByte a v).tab = s.tab := rfl

@[simp] theorem State.writeByte_tabv (a : Nat) (v : Byte) : (s.writeByte a v).tabv = s.tabv := rfl

@[simp] theorem State.writeByte_seq (a : Nat) (v : Byte) : (s.writeByte a v).seq = s.seq := rfl

@[simp] theorem State.writeByte_res (a : Nat) (v : Byte) : (s.writeByte a v).res = s.res := rfl

@[simp] theorem State.writeByte_fault (a : Nat) (v : Byte) : (s.writeByte a v).fault = s.fault := rfl

@[simp] theorem State.writeByte_fcmd (a : Nat) (v : Byte) : (s.writeByte a v).fcmd = s.fcmd := rfl

@[simp] theorem State.writeByte_inbox (a : Nat) (v : Byte) : (s.writeByte a v).inbox = s.inbox := rfl

@[simp] theorem State.writeByte_resets (a : Nat) (v : Byte) : (s.writeByte a v).resets = s.resets := rfl

/-! ### `setRes` -/

@[simp] theorem State.setRes_cfg (v : Byte) : (s.setRes v).cfg = s.cfg := rfl

@[simp] theorem State.setRes_mem (v : Byte) : (s.setRes v).mem = s.mem := rfl

@[simp] theorem State.setRes_tab (v : Byte) : (s.setRes v).tab = s.tab := rfl

@[simp] theorem State.setRes_tabv (v : Byte) : (s.setRes v).tabv = s.tabv := rfl

@[simp] theorem State.setRes_seq (v : Byte) : (s.setRes v).seq = s.seq := rfl

@[simp] theorem State.setRes_res (v : Byte) : (s.setRes v).res = v := rfl

@[simp] theorem State.setRes_fault (v : Byte) : (s.setRes v).fault = s.fault := rfl

@[simp] theorem State.setRes_fcmd (v : Byte) : (s.setRes v).fcmd = s.fcmd := rfl

@[simp] theorem State.setRes_inbox (v : Byte) : (s.setRes v).inbox = s.inbox := rfl

@[simp] theorem State.setRes_resets (v : Byte) : (s.setRes v).resets = s.resets := rfl

/-! ### `setSeq` -/

@[simp] theorem State.setSeq_cfg (v : SeqCount) : (s.setSeq v).cfg = s.cfg := rfl

@[simp] theorem State.setSeq_mem (v : SeqCount) : (s.setSeq v).mem = s.mem := rfl

@[simp] theorem State.setSeq_tab (v : SeqCount) : (s.setSeq v).tab = s.tab := rfl

@[simp] theorem State.setSeq_tabv (v : SeqCount) : (s.setSeq v).tabv = s.tabv := rfl

@[simp] theorem State.setSeq_seq (v : SeqCount) : (s.setSeq v).seq = v := rfl

@[simp] theorem State.setSeq_res (v : SeqCount) : (s.setSeq v).res = s.res := rfl

@[simp] theorem State.setSeq_fault (v : SeqCount) : (s.setSeq v).fault = s.fault := rfl

@[simp] theorem State.setSeq_fcmd (v : SeqCount) : (s.setSeq v).fcmd = s.fcmd := rfl

@[simp] theorem State.setSeq_inbox (v : SeqCount) : (s.setSeq v).inbox = s.inbox := rfl

@[simp] theorem State.setSeq_resets (v : SeqCount) : (s.setSeq v).resets = s.resets := rfl

/-! ### `raise` -/

@[simp] theorem State.raise_cfg (cause : FaultCause) (w : Word) : (s.raise cause w).cfg = s.cfg := rfl

@[simp] theorem State.raise_mem (cause : FaultCause) (w : Word) : (s.raise cause w).mem = s.mem := rfl

@[simp] theorem State.raise_tab (cause : FaultCause) (w : Word) : (s.raise cause w).tab = s.tab := rfl

@[simp] theorem State.raise_tabv (cause : FaultCause) (w : Word) : (s.raise cause w).tabv = s.tabv := rfl

@[simp] theorem State.raise_seq (cause : FaultCause) (w : Word) : (s.raise cause w).seq = s.seq := rfl

@[simp] theorem State.raise_res (cause : FaultCause) (w : Word) : (s.raise cause w).res = s.res := rfl

@[simp] theorem State.raise_fault (cause : FaultCause) (w : Word) : (s.raise cause w).fault = cause.code := rfl

@[simp] theorem State.raise_fcmd (cause : FaultCause) (w : Word) : (s.raise cause w).fcmd = w := rfl

@[simp] theorem State.raise_inbox (cause : FaultCause) (w : Word) : (s.raise cause w).inbox = s.inbox := rfl

@[simp] theorem State.raise_resets (cause : FaultCause) (w : Word) : (s.raise cause w).resets = s.resets := rfl

/-! ### `applyReset` -/

@[simp] theorem State.applyReset_cfg : (s.applyReset).cfg = s.cfg := rfl

@[simp] theorem State.applyReset_mem : (s.applyReset).mem = [] := rfl

@[simp] theorem State.applyReset_tab : (s.applyReset).tab = unbuiltTable (s.resets + 1) := rfl

@[simp] theorem State.applyReset_tabv : (s.applyReset).tabv = false := rfl

@[simp] theorem State.applyReset_seq : (s.applyReset).seq = s.cfg.seqReset := rfl

@[simp] theorem State.applyReset_res : (s.applyReset).res = 0 := rfl

@[simp] theorem State.applyReset_fault : (s.applyReset).fault = 0 := rfl

@[simp] theorem State.applyReset_fcmd : (s.applyReset).fcmd = 0 := rfl

@[simp] theorem State.applyReset_inbox : (s.applyReset).inbox = s.inbox := rfl

@[simp] theorem State.applyReset_resets : (s.applyReset).resets = s.resets + 1 := rfl

/-! ### `issuing` -/

@[simp] theorem State.issuing_cfg (is : List Instr) : (s.issuing is).cfg = s.cfg := rfl

@[simp] theorem State.issuing_mem (is : List Instr) : (s.issuing is).mem = s.mem := rfl

@[simp] theorem State.issuing_tab (is : List Instr) : (s.issuing is).tab = s.tab := rfl

@[simp] theorem State.issuing_tabv (is : List Instr) : (s.issuing is).tabv = s.tabv := rfl

@[simp] theorem State.issuing_seq (is : List Instr) : (s.issuing is).seq = s.seq := rfl

@[simp] theorem State.issuing_res (is : List Instr) : (s.issuing is).res = s.res := rfl

@[simp] theorem State.issuing_fault (is : List Instr) : (s.issuing is).fault = s.fault := rfl

@[simp] theorem State.issuing_fcmd (is : List Instr) : (s.issuing is).fcmd = s.fcmd := rfl

@[simp] theorem State.issuing_inbox (is : List Instr) :
    (s.issuing is).inbox = is.map fun i => .issue (encode i) := rfl

@[simp] theorem State.issuing_resets (is : List Instr) : (s.issuing is).resets = s.resets := rfl

/-! ### `withFetchWord` -/

@[simp] theorem State.withFetchWord_cfg (nbits w : Nat) : (s.withFetchWord nbits w).cfg = s.cfg := rfl

@[simp] theorem State.withFetchWord_mem (nbits w : Nat) : (s.withFetchWord nbits w).mem = s.mem := rfl

@[simp] theorem State.withFetchWord_tab (nbits w : Nat) : (s.withFetchWord nbits w).tab = s.tab := rfl

@[simp] theorem State.withFetchWord_tabv (nbits w : Nat) : (s.withFetchWord nbits w).tabv = s.tabv := rfl

@[simp] theorem State.withFetchWord_seq (nbits w : Nat) : (s.withFetchWord nbits w).seq = s.seq := rfl

@[simp] theorem State.withFetchWord_res (nbits w : Nat) : (s.withFetchWord nbits w).res = s.res := rfl

@[simp] theorem State.withFetchWord_fault (nbits w : Nat) : (s.withFetchWord nbits w).fault = s.fault := rfl

@[simp] theorem State.withFetchWord_fcmd (nbits w : Nat) : (s.withFetchWord nbits w).fcmd = s.fcmd := rfl

@[simp] theorem State.withFetchWord_inbox (nbits w : Nat) :
    (s.withFetchWord nbits w).inbox = .issue (tableWord nbits w) :: s.inbox := rfl

@[simp] theorem State.withFetchWord_resets (nbits w : Nat) : (s.withFetchWord nbits w).resets = s.resets := rfl

end Sys2Proof.Machine
end

