-- ==== Sys2Proof/Laws/Memory.lean ====
section
/-! SUPPORT. The laws of buffer memory: a read after a write, what a write leaves alone, and the canonical form, which every
memory operation keeps. -/

namespace Sys2Proof.Machine

/-! ### Read after write -/

theorem Memory.lookup_insert (m : Memory) (a : Nat) (v : Byte) (x : Nat) :
    Memory.lookup (Memory.insert m a v) x = if x = a then some v else Memory.lookup m x := by
  induction m with
  | nil => simp [Memory.insert, Memory.lookup, eq_comm]
  | cons c m ih =>
    simp only [Memory.insert]
    split
    · simp [Memory.lookup, eq_comm]
    · split
      · next h => subst h; simp only [Memory.lookup, eq_comm]; split <;> simp_all
      · next h => simp only [Memory.lookup, ih]; split <;> simp_all

theorem Memory.lookup_store (m : Memory) (a : Nat) (v : Byte) (x : Nat) :
    Memory.lookup (Memory.store m a v) x = if x = a then some v else Memory.lookup m x := by
  simp [Memory.store, Memory.unlisted, Memory.lookup_insert]

@[simp] theorem State.byteAt_writeByte (s : State) (a : Nat) (v : Byte) (x : Nat) :
    (s.writeByte a v).byteAt x = if x = a then v else s.byteAt x := by
  simp only [State.byteAt, State.writeByte_mem, State.writeByte_resets, Memory.lookup_store]
  by_cases h : x = a <;> simp [h]

/-- A read depends on `mem` and `resets` alone. -/
theorem State.byteAt_congr {s t : State} (hm : s.mem = t.mem) (hr : s.resets = t.resets) (x : Nat) :
    s.byteAt x = t.byteAt x := by
  simp only [State.byteAt, hm, hr]

@[simp] theorem State.byteAt_setTable (s : State) (t : ByteTable) (x : Nat) : (s.setTable t).byteAt x = s.byteAt x := rfl

@[simp] theorem State.byteAt_setRes (s : State) (v : Byte) (x : Nat) : (s.setRes v).byteAt x = s.byteAt x := rfl

@[simp] theorem State.byteAt_setSeq (s : State) (v : SeqCount) (x : Nat) : (s.setSeq v).byteAt x = s.byteAt x := rfl

@[simp] theorem State.byteAt_raise (s : State) (c : FaultCause) (w : Word) (x : Nat) :
    (s.raise c w).byteAt x = s.byteAt x := rfl

/-! ### Writing a list of bytes -/

/-- `writeBytes` changes `mem` and nothing else. -/
theorem State.writeBytes_frame (vs : List Byte) : ∀ (s : State) (a : Nat),
    { s.writeBytes a vs with mem := s.mem } = s := by
  induction vs with
  | nil => intro s a; rfl
  | cons v vs ih =>
    intro s a
    have h := ih (s.writeByte a v) (a + 1)
    have h' := congrArg (fun t : State => { t with mem := s.mem }) h
    exact h'

/-- A field other than `mem` is untouched by `writeBytes`. -/
theorem State.writeBytes_field {α : Type} (f : State → α) (hf : ∀ (s : State) (m : Memory), f { s with mem := m } = f s)
    (s : State) (a : Nat) (vs : List Byte) : f (s.writeBytes a vs) = f s := by
  rw [← hf (s.writeBytes a vs) s.mem, State.writeBytes_frame]

@[simp] theorem State.writeBytes_cfg (s : State) (a : Nat) (vs : List Byte) : (s.writeBytes a vs).cfg = s.cfg :=
  State.writeBytes_field State.cfg (fun _ _ => rfl) s a vs

@[simp] theorem State.writeBytes_tab (s : State) (a : Nat) (vs : List Byte) : (s.writeBytes a vs).tab = s.tab :=
  State.writeBytes_field State.tab (fun _ _ => rfl) s a vs

@[simp] theorem State.writeBytes_tabv (s : State) (a : Nat) (vs : List Byte) : (s.writeBytes a vs).tabv = s.tabv :=
  State.writeBytes_field State.tabv (fun _ _ => rfl) s a vs

@[simp] theorem State.writeBytes_seq (s : State) (a : Nat) (vs : List Byte) : (s.writeBytes a vs).seq = s.seq :=
  State.writeBytes_field State.seq (fun _ _ => rfl) s a vs

@[simp] theorem State.writeBytes_res (s : State) (a : Nat) (vs : List Byte) : (s.writeBytes a vs).res = s.res :=
  State.writeBytes_field State.res (fun _ _ => rfl) s a vs

@[simp] theorem State.writeBytes_fault (s : State) (a : Nat) (vs : List Byte) : (s.writeBytes a vs).fault = s.fault :=
  State.writeBytes_field State.fault (fun _ _ => rfl) s a vs

@[simp] theorem State.writeBytes_fcmd (s : State) (a : Nat) (vs : List Byte) : (s.writeBytes a vs).fcmd = s.fcmd :=
  State.writeBytes_field State.fcmd (fun _ _ => rfl) s a vs

@[simp] theorem State.writeBytes_inbox (s : State) (a : Nat) (vs : List Byte) : (s.writeBytes a vs).inbox = s.inbox :=
  State.writeBytes_field State.inbox (fun _ _ => rfl) s a vs

@[simp] theorem State.writeBytes_resets (s : State) (a : Nat) (vs : List Byte) : (s.writeBytes a vs).resets = s.resets :=
  State.writeBytes_field State.resets (fun _ _ => rfl) s a vs

/-- What every address reads as after `writeBytes`: the byte of the list in its range, the old byte elsewhere. -/
theorem State.byteAt_writeBytes (vs : List Byte) : ∀ (s : State) (a x : Nat),
    (s.writeBytes a vs).byteAt x = if h : a ≤ x ∧ x - a < vs.length then vs[x - a]'h.2 else s.byteAt x := by
  induction vs with
  | nil => intro s a x; simp [State.writeBytes]
  | cons v vs ih =>
    intro s a x
    rw [State.writeBytes, ih, State.byteAt_writeByte]
    rcases lt_trichotomy x a with h | h | h
    · simp [show ¬ a + 1 ≤ x by omega, show ¬ a ≤ x by omega, show x ≠ a by omega]
    · subst h; simp
    · obtain ⟨k, rfl⟩ : ∃ k, x = a + 1 + k := ⟨x - (a + 1), by omega⟩
      simp [show a + 1 + k - a = k + 1 by omega, show a + 1 + k - (a + 1) = k by omega,
        show a + 1 + k ≠ a by omega, show a ≤ a + 1 + k by omega]

/-- Inside the range `writeBytes` puts the bytes of the list. -/
theorem State.byteAt_writeBytes_inside (s : State) (a i : Nat) (vs : List Byte) (h : i < vs.length) :
    (s.writeBytes a vs).byteAt (a + i) = vs[i] := by
  rw [State.byteAt_writeBytes, dif_pos ⟨Nat.le_add_right a i, by omega⟩]
  simp only [Nat.add_sub_cancel_left]

/-- Outside the range `writeBytes` leaves every byte as it was. -/
theorem State.byteAt_writeBytes_outside (s : State) (a x : Nat) (vs : List Byte) (h : x < a ∨ a + vs.length ≤ x) :
    (s.writeBytes a vs).byteAt x = s.byteAt x := by
  rw [State.byteAt_writeBytes, dif_neg (by omega)]

/-! ### The canonical form -/

theorem Memory.wf_nil : Memory.wf [] := by simp [Memory.wf]

theorem Memory.mem_insert {m : Memory} {a : Nat} {v : Byte} {c : Host.Cell} (h : c ∈ Memory.insert m a v) :
    c = (a, v) ∨ c ∈ m := by
  induction m with
  | nil => simpa [Memory.insert] using h
  | cons d m ih =>
    simp only [Memory.insert] at h
    split at h
    · simpa using h
    · split at h <;> simp only [List.mem_cons] at h ⊢ <;> rcases h with h | h
      · exact .inl h
      · exact .inr (.inr h)
      · exact .inr (.inl h)
      · rcases ih h with h | h
        · exact .inl h
        · exact .inr (.inr h)

theorem Memory.mem_erase {m : Memory} {a : Nat} {c : Host.Cell} (h : c ∈ Memory.erase m a) : c ∈ m := by
  induction m with
  | nil => simp [Memory.erase] at h
  | cons d m ih =>
    simp only [Memory.erase] at h
    split at h
    · exact List.mem_cons_of_mem _ h
    · rcases List.mem_cons.mp h with h | h
      · exact h ▸ List.mem_cons_self
      · exact List.mem_cons_of_mem _ (ih h)

theorem Memory.mem_store {m : Memory} {a : Nat} {v : Byte} {c : Host.Cell} (h : c ∈ Memory.store m a v) :
    c = (a, v) ∨ c ∈ m := by
  simp only [Memory.store] at h
  split at h
  · exact .inr (Memory.mem_erase h)
  · exact Memory.mem_insert h

theorem Memory.rising_insert {m : Memory} (a : Nat) (v : Byte) (h : m.Pairwise fun c d => c.1 < d.1) :
    (Memory.insert m a v).Pairwise fun c d => c.1 < d.1 := by
  induction m with
  | nil => simp [Memory.insert]
  | cons c m ih =>
    obtain ⟨hc, hm⟩ := List.pairwise_cons.mp h
    simp only [Memory.insert]
    split
    · next hlt =>
      refine List.pairwise_cons.mpr ⟨fun d hd => ?_, h⟩
      rcases List.mem_cons.mp hd with rfl | hd
      · exact hlt
      · exact lt_trans hlt (hc d hd)
    · split
      · next heq => exact List.pairwise_cons.mpr ⟨fun d hd => heq ▸ hc d hd, hm⟩
      · refine List.pairwise_cons.mpr ⟨fun d hd => ?_, ih hm⟩
        rcases Memory.mem_insert hd with rfl | hd
        · show c.1 < a; omega
        · exact hc d hd

theorem Memory.rising_erase {m : Memory} (a : Nat) (h : m.Pairwise fun c d => c.1 < d.1) :
    (Memory.erase m a).Pairwise fun c d => c.1 < d.1 := by
  induction m with
  | nil => simp [Memory.erase]
  | cons c m ih =>
    obtain ⟨hc, hm⟩ := List.pairwise_cons.mp h
    simp only [Memory.erase]
    split
    · exact hm
    · exact List.pairwise_cons.mpr ⟨fun d hd => hc d (Memory.mem_erase hd), ih hm⟩

/-- A write of one byte keeps the canonical form. -/
theorem Memory.wf_store {m : Memory} (a : Nat) (v : Byte) (h : Memory.wf m) : Memory.wf (Memory.store m a v) := by
  refine ⟨?_, fun c hc => ?_⟩
  · simp only [Memory.store]
    split
    · exact Memory.rising_erase a h.1
    · exact Memory.rising_insert a v h.1
  · simp only [Memory.store] at hc
    split at hc
    · exact h.2 c (Memory.mem_erase hc)
    · next hv =>
      rcases Memory.mem_insert hc with rfl | hc
      · exact hv
      · exact h.2 c hc

/-- `M[a] <- v` keeps the canonical form. -/
theorem State.wf_writeByte {s : State} (a : Nat) (v : Byte) (h : Memory.wf s.mem) : Memory.wf (s.writeByte a v).mem :=
  Memory.wf_store a v h

/-- `MemWrite` keeps the canonical form. -/
theorem State.wf_writeBytes (vs : List Byte) : ∀ {s : State} (a : Nat), Memory.wf s.mem →
    Memory.wf (s.writeBytes a vs).mem := by
  induction vs with
  | nil => intro s a h; exact h
  | cons v vs ih => intro s a h; exact ih (a + 1) (State.wf_writeByte a v h)

/-- An entry after `MemWrite` is an old one or lies in the range written. -/
theorem State.mem_writeBytes {c : Host.Cell} (vs : List Byte) : ∀ {s : State} {a : Nat},
    c ∈ (s.writeBytes a vs).mem → c ∈ s.mem ∨ (a ≤ c.1 ∧ c.1 < a + vs.length) := by
  induction vs with
  | nil => intro s a h; exact .inl h
  | cons v vs ih =>
    intro s a h
    rcases ih h with h | h
    · rcases Memory.mem_store h with rfl | h
      · exact .inr ⟨le_refl _, by simp⟩
      · exact .inl h
    · exact .inr ⟨by omega, by simp only [List.length_cons]; omega⟩

/-- The memory after reset has the canonical form. -/
theorem Memory.wf_reset : Memory.wf State.reset.mem := Memory.wf_nil

end Sys2Proof.Machine
end

