-- ==== Sys2Proof/Laws/Ops.lean ====
section
/-! SUPPORT. What each shared operation can do, said once. -/

namespace Sys2Proof.Machine

/-! ### The frame of a command -/

/-- A command answers next, always: with the state unchanged if the block is halted, else with its effect. -/
theorem State.command_next {s t : State} {f : State → State} (h : s.command f = .next t) :
    (s.halted = true ∧ t = s) ∨ (s.halted = false ∧ t = f s) := by
  simp only [State.command, Host.Outcome.next.injEq] at h
  cases hs : s.halted <;> simp_all

theorem State.command_halted {s : State} (f : State → State) (h : s.halted = true) : s.command f = .next s := by
  simp [State.command, h]

theorem State.command_running {s : State} (f : State → State) (h : s.halted = false) : s.command f = .next (f s) := by
  simp [State.command, h]

@[simp] theorem State.halted_eq_true {s : State} : s.halted = true ↔ s.fault ≠ 0 := by simp [State.halted]

@[simp] theorem State.halted_eq_false {s : State} : s.halted = false ↔ s.fault = 0 := by simp [State.halted]

@[simp] theorem State.tableNotBuilt_eq_true {s : State} : s.tableNotBuilt = true ↔ s.tabv = false := by
  simp [State.tableNotBuilt]

theorem FaultCause.code_ne_zero (c : FaultCause) : c.code ≠ 0 := by cases c <;> decide

theorem FaultCause.code_le_five (c : FaultCause) : c.code.toNat ≤ 5 := by cases c <;> decide

theorem FaultCause.code_injective {c d : FaultCause} (h : c.code = d.code) : c = d := by
  cases c <;> cases d <;> first | rfl | exact absurd h (by decide)

/-! ### The memory primitives -/

/-- `MemRead` answers the bytes exactly when the whole range lies in `M`. -/
theorem State.memRead_eq_some {s : State} {a n : Nat} {bs : List Byte} :
    s.memRead a n = some bs ↔ a + n ≤ s.cfg.msize ∧ bs = s.bytesAt a n := by
  simp only [State.memRead]
  split
  · simp; omega
  · simp only [Option.some.injEq, eq_comm]; constructor
    · exact fun h => ⟨by omega, h⟩
    · exact fun h => h.2

theorem State.memRead_eq_none {s : State} {a n : Nat} : s.memRead a n = none ↔ s.cfg.msize < a + n := by
  simp [State.memRead]

/-- `MemWrite` writes exactly when the whole range lies in `M`. -/
theorem State.memWrite_eq_some {s t : State} {a : Nat} {vs : List Byte} :
    s.memWrite a vs = some t ↔ a + vs.length ≤ s.cfg.msize ∧ t = s.writeBytes a vs := by
  simp only [State.memWrite]
  split
  · simp; omega
  · simp only [Option.some.injEq, eq_comm]; constructor
    · exact fun h => ⟨by omega, h⟩
    · exact fun h => h.2

theorem State.memWrite_eq_none {s : State} {a : Nat} {vs : List Byte} :
    s.memWrite a vs = none ↔ s.cfg.msize < a + vs.length := by
  simp [State.memWrite]

@[simp] theorem State.length_bytesAt (s : State) (a n : Nat) : (s.bytesAt a n).length = n := by simp [State.bytesAt]

@[simp] theorem State.getElem_bytesAt (s : State) (a n i : Nat) (h : i < (s.bytesAt a n).length) :
    (s.bytesAt a n)[i] = s.byteAt (a + i) := by simp [State.bytesAt]

/-- The bytes of a range depend on the bytes in it alone. -/
theorem State.bytesAt_congr {s t : State} {a n : Nat} (h : ∀ i < n, s.byteAt (a + i) = t.byteAt (a + i)) :
    s.bytesAt a n = t.bytesAt a n := by
  simp only [State.bytesAt, List.map_inj_left, List.mem_range]
  exact h

theorem mem_addrRange {a n x : Nat} : x ∈ addrRange a n ↔ a ≤ x ∧ x < a + n := by
  simp only [addrRange, List.mem_map, List.mem_range]
  exact ⟨fun ⟨i, hi, h⟩ => by omega, fun h => ⟨x - a, by omega, by omega⟩⟩

/-! ### The literals of R6 as numbers -/

/-- The counter range is 0 to 15 (R6, R14). -/
theorem seqCount_toNat_lt (q : SeqCount) : q.toNat < 16 := q.isLt

/-- The counter wraps from 15 to 0 (R72). -/
theorem seqCount_toNat_succ (q : SeqCount) : (q + 1).toNat = (q.toNat + 1) % 16 := BitVec.toNat_add q 1

/-- An offset of a descriptor is in 0..7 (R5). -/
theorem frameOffset_lt (off : Fin Config.frameLength) : off.val < 8 := off.isLt

/-! ### Tables and buffers -/

theorem getElem_tableOf (n : Nat) (f : Nat → Byte) (i : Nat) (h : i < n) : (tableOf n f)[i] = f i := by
  simp [tableOf]

theorem tableAt_tableOf (f : Nat → Byte) (i : Byte) : tableAt (tableOf Config.tableSize f) i = f i.toNat := by
  simp only [tableAt, getElem_tableOf]

/-- The table that `BUILD` writes holds `j1850_entry` at every index (R61). -/
theorem tableAt_j1850Table (i : Byte) : tableAt j1850Table i = j1850Entry i := by
  simp [j1850Table, tableAt_tableOf]

@[simp] theorem length_setBufferBit (buf : List Byte) (p : Nat) (v : Bool) : (setBufferBit buf p v).length = buf.length := by
  simp [setBufferBit]

@[simp] theorem length_insertBits (buf : List Byte) (start width : Nat) (v : BitVec 32) :
    (insertBits buf start width v).length = buf.length := by
  induction width with
  | zero => rfl
  | succ w ih => simp [insertBits, ih]

/-- One bit of a byte set: that bit and no other. -/
theorem getLsbD_setBit (b : Byte) (k : Nat) (hk : k < 8) (v : Bool) (j : Nat) (hj : j < 8) :
    (setBit b k v).getLsbD j = if j = k then v else b.getLsbD j := by
  cases v <;> simp only [setBit, Bool.false_eq_true, if_false, if_true] <;> by_cases h : j = k
  · subst h; simp [hj]
  · rcases Nat.lt_or_gt_of_ne h with h' | h'
    · simp [h, h', hj]
    · simp [h, hj, show j - k ≠ 0 by omega, show ¬ j < k by omega]
  · subst h; simp [hj]
  · rcases Nat.lt_or_gt_of_ne h with h' | h'
    · simp [h, h']
    · simp [h, show j - k ≠ 0 by omega, show ¬ j < k by omega]

/-- The range a `PACK` of legal width touches is `lo..hi`, 1 to 5 bytes (R81). -/
theorem packLen_spec (a start width : Nat) (h1 : 1 ≤ width) (h2 : width ≤ 32) :
    packLo a start + packLen a start width = packHi a start width + 1 ∧
      1 ≤ packLen a start width ∧ packLen a start width ≤ 5 := by
  simp only [packLo, packHi, packLen]; omega

theorem legalWidth_eq_true {w : Byte} : legalWidth w = true ↔ 1 ≤ w.toNat ∧ w.toNat ≤ 32 := by simp [legalWidth]

/-- The modulus a code stands for is in 1..256 (R84). -/
theorem modulusOf_range (code : Byte) : 1 ≤ modulusOf code ∧ modulusOf code ≤ 256 := by
  have hlt := code.isLt
  simp only [modulusOf]
  split
  · omega
  · next h =>
    have : code.toNat ≠ 0 := fun h0 => h (BitVec.eq_of_toNat_eq (by simpa using h0))
    omega

end Sys2Proof.Machine
end

