-- ==== Sys2Proof/Laws/Exec.lean ====
section
/-! SUPPORT. What each command can do, said once: an inversion lemma per meaning, and one over all of them. -/

namespace Sys2Proof.Machine

variable {s : State}

/-- A halted block ignores every command (R103). -/
theorem exec_halted (i : Instr) (h : s.fault ≠ 0) : exec i s = .next s := by
  have hh := State.halted_eq_true.mpr h
  cases i <;> simp only [exec, execBuild, execCrc8, execXcrc, execSeqadv, execPack, execXsum, execCnxt, execWrb, execRdb,
    execStres] <;> exact State.command_halted _ hh

theorem execBuild_running (h : s.fault = 0) : execBuild s = .next (s.setTable j1850Table) :=
  State.command_running _ (State.halted_eq_false.mpr h)

/-- What `CRC8` can do in a block that is not halted (R64). -/
theorem execCrc8_running (a b c : Byte) (h : s.fault = 0) :
    (s.tabv = false ∧ execCrc8 a b c s = .next (s.raise .tableNotBuilt (encode (.crc8 a b c)))) ∨
    (s.tabv = true ∧ s.cfg.msize < a.toNat + b.toNat ∧
      execCrc8 a b c s = .next (s.raise .addressRange (encode (.crc8 a b c)))) ∨
    (s.tabv = true ∧ a.toNat + b.toNat ≤ s.cfg.msize ∧
      execCrc8 a b c s = .next (s.setRes (crc8J1850 s.tab (s.bytesAt a.toNat b.toNat) c))) := by
  rw [execCrc8, State.command_running _ (State.halted_eq_false.mpr h)]
  cases hv : s.tabv
  · simp [State.tableNotBuilt, hv]
  · by_cases hr : s.cfg.msize < a.toNat + b.toNat
    · simp [State.tableNotBuilt, hv, hr, State.memRead_eq_none.mpr hr]
    · simp [State.tableNotBuilt, hv, hr, State.memRead_eq_some.mpr ⟨not_lt.mp hr, rfl⟩, not_lt.mp hr]

/-- What `XCRC` can do in a block that is not halted (R71). -/
theorem execXcrc_running (a t : Byte) (h : s.fault = 0) :
    (s.cfg.nx ≤ t.toNat ∧ execXcrc a t s = .next (s.raise .badFrameType (encode (.xcrc a t)))) ∨
    ∃ ht : t.toNat < s.cfg.tables.xd.length,
      ((∃ x ∈ offsetAddrs a.toNat (s.cfg.tables.xd[t.toNat]).offs, s.cfg.msize ≤ x) ∧
        execXcrc a t s = .next (s.raise .addressRange (encode (.xcrc a t)))) ∨
      ((∀ x ∈ offsetAddrs a.toNat (s.cfg.tables.xd[t.toNat]).offs, x < s.cfg.msize) ∧
        execXcrc a t s = .next (s.setRes (xcrcOf s.cfg.xtab (s.cfg.tables.xd[t.toNat]).hn s.seq
          ((offsetAddrs a.toNat (s.cfg.tables.xd[t.toNat]).offs).map s.byteAt)
          (kennungOf s.cfg.tables t.toNat ht s.seq)))) := by
  rw [execXcrc, State.command_running _ (State.halted_eq_false.mpr h)]
  by_cases ht : t.toNat < s.cfg.tables.xd.length
  · refine .inr ⟨ht, ?_⟩
    simp only [dif_pos ht]
    by_cases hx : ∃ x ∈ offsetAddrs a.toNat (s.cfg.tables.xd[t.toNat]).offs, s.cfg.msize ≤ x
    · refine .inl ⟨hx, ?_⟩
      rw [if_pos (by simpa [List.any_eq_true] using hx)]
    · refine .inr ⟨fun x hm => not_le.mp fun hle => hx ⟨x, hm, hle⟩, ?_⟩
      rw [if_neg (by simpa [List.any_eq_true] using hx)]
  · exact .inl ⟨not_lt.mp ht, by simp only [dif_neg ht]⟩

theorem execSeqadv_running (h : s.fault = 0) : execSeqadv s = .next (s.setSeq (s.seq + 1)) :=
  State.command_running _ (State.halted_eq_false.mpr h)

/-- What `PACK` can do in a block that is not halted (R81). -/
theorem execPack_running (a start width : Byte) (imm : BitVec 32) (h : s.fault = 0) :
    (¬ (1 ≤ width.toNat ∧ width.toNat ≤ 32) ∧
      execPack a start width imm s = .next (s.raise .badOperand (encode (.pack a start width imm)))) ∨
    ((1 ≤ width.toNat ∧ width.toNat ≤ 32) ∧ s.cfg.msize ≤ packHi a.toNat start.toNat width.toNat ∧
      execPack a start width imm s = .next (s.raise .addressRange (encode (.pack a start width imm)))) ∨
    ((1 ≤ width.toNat ∧ width.toNat ≤ 32) ∧ packHi a.toNat start.toNat width.toNat < s.cfg.msize ∧
      execPack a start width imm s = .next (s.writeBytes (packLo a.toNat start.toNat)
        (insertBits (s.bytesAt (packLo a.toNat start.toNat) (packLen a.toNat start.toNat width.toNat))
          (start.toNat % 8) width.toNat imm))) := by
  rw [execPack, State.command_running _ (State.halted_eq_false.mpr h)]
  by_cases hw : 1 ≤ width.toNat ∧ width.toNat ≤ 32
  · have hlen := (packLen_spec a.toNat start.toNat width.toNat hw.1 hw.2).1
    simp only [if_pos (legalWidth_eq_true.mpr hw)]
    by_cases hr : s.cfg.msize ≤ packHi a.toNat start.toNat width.toNat
    · refine .inr (.inl ⟨hw, hr, ?_⟩)
      rw [State.memRead_eq_none.mpr (by omega)]
    · refine .inr (.inr ⟨hw, not_le.mp hr, ?_⟩)
      rw [State.memRead_eq_some.mpr ⟨by omega, rfl⟩]
  · exact .inl ⟨hw, by rw [if_neg (fun hl => hw (legalWidth_eq_true.mp hl))]⟩

/-- What `XSUM` can do in a block that is not halted (R83). -/
theorem execXsum_running (a b : Byte) (h : s.fault = 0) :
    (s.cfg.msize < a.toNat + b.toNat ∧ execXsum a b s = .next (s.raise .addressRange (encode (.xsum a b)))) ∨
    (a.toNat + b.toNat ≤ s.cfg.msize ∧
      execXsum a b s = .next (s.setRes (xsumOf (s.bytesAt a.toNat b.toNat)))) := by
  rw [execXsum, State.command_running _ (State.halted_eq_false.mpr h)]
  by_cases hr : s.cfg.msize < a.toNat + b.toNat
  · exact .inl ⟨hr, by rw [State.memRead_eq_none.mpr hr]⟩
  · exact .inr ⟨not_lt.mp hr, by rw [State.memRead_eq_some.mpr ⟨not_lt.mp hr, rfl⟩]⟩

theorem execCnxt_running (v m : Byte) (h : s.fault = 0) :
    execCnxt v m s = .next (s.setRes (counterNext v (modulusOf m))) :=
  State.command_running _ (State.halted_eq_false.mpr h)

/-- What `WRB` can do in a block that is not halted (R90). -/
theorem execWrb_running (a c : Byte) (h : s.fault = 0) :
    (s.cfg.msize ≤ a.toNat ∧ execWrb a c s = .next (s.raise .addressRange (encode (.wrb a c)))) ∨
    (a.toNat < s.cfg.msize ∧ execWrb a c s = .next (s.writeByte a.toNat c)) := by
  rw [execWrb, State.command_running _ (State.halted_eq_false.mpr h)]
  by_cases hr : s.cfg.msize ≤ a.toNat
  · refine .inl ⟨hr, ?_⟩
    rw [State.memWrite_eq_none.mpr (show s.cfg.msize < a.toNat + [c].length by simp only [List.length_singleton]; omega),
      Option.getD_none]
  · refine .inr ⟨not_le.mp hr, ?_⟩
    rw [State.memWrite_eq_some.mpr ⟨show a.toNat + [c].length ≤ s.cfg.msize by simp only [List.length_singleton]; omega,
      rfl⟩, Option.getD_some]
    rfl

/-- What `RDB` can do in a block that is not halted (R91). -/
theorem execRdb_running (a : Byte) (h : s.fault = 0) :
    (s.cfg.msize ≤ a.toNat ∧ execRdb a s = .next (s.raise .addressRange (encode (.rdb a)))) ∨
    (a.toNat < s.cfg.msize ∧ execRdb a s = .next (s.setRes (s.byteAt a.toNat))) := by
  rw [execRdb, State.command_running _ (State.halted_eq_false.mpr h)]
  by_cases hr : s.cfg.msize ≤ a.toNat
  · exact .inl ⟨hr, by rw [if_pos hr]⟩
  · exact .inr ⟨not_le.mp hr, by rw [if_neg hr]⟩

/-- What `STRES` can do in a block that is not halted (R92). -/
theorem execStres_running (a : Byte) (h : s.fault = 0) :
    (s.cfg.msize ≤ a.toNat ∧ execStres a s = .next (s.raise .addressRange (encode (.stres a)))) ∨
    (a.toNat < s.cfg.msize ∧ execStres a s = .next (s.writeByte a.toNat s.res)) := by
  rw [execStres, State.command_running _ (State.halted_eq_false.mpr h)]
  by_cases hr : s.cfg.msize ≤ a.toNat
  · refine .inl ⟨hr, ?_⟩
    rw [State.memWrite_eq_none.mpr (show s.cfg.msize < a.toNat + [s.res].length by
      simp only [List.length_singleton]; omega), Option.getD_none]
  · refine .inr ⟨not_le.mp hr, ?_⟩
    rw [State.memWrite_eq_some.mpr ⟨show a.toNat + [s.res].length ≤ s.cfg.msize by
      simp only [List.length_singleton]; omega, rfl⟩, Option.getD_some]
    rfl

/-- What any command can do in a block that is not halted: it raises one fault and nothing else (R101, R102), or it
completes, and then `FAULT`, `FCMD`, the configuration and the host are as they were. -/
theorem exec_running (i : Instr) (h : s.fault = 0) :
    ∃ t, exec i s = .next t ∧ ((∃ cause, t = s.raise cause (encode i)) ∨
      (t.fault = 0 ∧ t.fcmd = s.fcmd ∧ t.cfg = s.cfg ∧ t.inbox = s.inbox ∧ t.resets = s.resets)) := by
  cases i with
  | build => exact ⟨_, execBuild_running h, .inr (by simp [h])⟩
  | crc8 a b c =>
    rcases execCrc8_running a b c h with ⟨-, e⟩ | ⟨-, -, e⟩ | ⟨-, -, e⟩
    exacts [⟨_, e, .inl ⟨_, rfl⟩⟩, ⟨_, e, .inl ⟨_, rfl⟩⟩, ⟨_, e, .inr (by simp [h])⟩]
  | xcrc a t =>
    rcases execXcrc_running a t h with ⟨-, e⟩ | ⟨_, ⟨-, e⟩ | ⟨-, e⟩⟩
    exacts [⟨_, e, .inl ⟨_, rfl⟩⟩, ⟨_, e, .inl ⟨_, rfl⟩⟩, ⟨_, e, .inr (by simp [h])⟩]
  | seqadv => exact ⟨_, execSeqadv_running h, .inr (by simp [h])⟩
  | pack a start width imm =>
    rcases execPack_running a start width imm h with ⟨-, e⟩ | ⟨-, -, e⟩ | ⟨-, -, e⟩
    exacts [⟨_, e, .inl ⟨_, rfl⟩⟩, ⟨_, e, .inl ⟨_, rfl⟩⟩, ⟨_, e, .inr (by simp [h])⟩]
  | xsum a b =>
    rcases execXsum_running a b h with ⟨-, e⟩ | ⟨-, e⟩
    exacts [⟨_, e, .inl ⟨_, rfl⟩⟩, ⟨_, e, .inr (by simp [h])⟩]
  | cnxt v m => exact ⟨_, execCnxt_running v m h, .inr (by simp [h])⟩
  | wrb a c =>
    rcases execWrb_running a c h with ⟨-, e⟩ | ⟨-, e⟩
    exacts [⟨_, e, .inl ⟨_, rfl⟩⟩, ⟨_, e, .inr (by simp [h])⟩]
  | rdb a =>
    rcases execRdb_running a h with ⟨-, e⟩ | ⟨-, e⟩
    exacts [⟨_, e, .inl ⟨_, rfl⟩⟩, ⟨_, e, .inr (by simp [h])⟩]
  | stres a =>
    rcases execStres_running a h with ⟨-, e⟩ | ⟨-, e⟩
    exacts [⟨_, e, .inl ⟨_, rfl⟩⟩, ⟨_, e, .inr (by simp [h])⟩]

/-- A run in a halted block changes nothing (R103). -/
theorem runCommands_halted (is : List Instr) (h : s.fault ≠ 0) : runCommands is s = s := by
  induction is with
  | nil => rfl
  | cons i is ih => simp only [runCommands, exec_halted i h, ih]

/-- A run of two programs, one after the other. -/
theorem runCommands_append (is js : List Instr) : runCommands (is ++ js) s = runCommands js (runCommands is s) := by
  induction is generalizing s with
  | nil => rfl
  | cons i is ih =>
    by_cases h : s.fault = 0
    · obtain ⟨t, e, -⟩ := exec_running i h
      simp only [List.cons_append, runCommands, e, ih]
    · rw [runCommands_halted _ h, runCommands_halted _ h, runCommands_halted _ h]

/-- A halted block ignores every word, legal or not (R103). -/
theorem execWord_halted (w : Word) (h : s.fault ≠ 0) : execWord w s = .next s := by
  rw [execWord]
  split
  · exact exec_halted _ h
  · exact State.command_halted _ (State.halted_eq_true.mpr h)

/-- A word that spells a command runs it (R3, R49). -/
theorem execWord_legal {w : Word} {i : Instr} (h : decode w = .legal i) : execWord w s = exec i s := by
  rw [execWord, h]

/-- An illegal word raises `IllegalCommand` in a block that is not halted (R50). -/
theorem execWord_illegal {w : Word} {why : IllegalWord} (hd : decode w = .illegal why) (h : s.fault = 0) :
    execWord w s = .next (s.raise .illegalCommand w) := by
  rw [execWord, hd]
  exact State.command_running _ (State.halted_eq_false.mpr h)

/-- What a step can do: nothing, a register read, a reset, an ignored word, an illegal word, or one command. -/
theorem step_cases {s t : State} (h : step s = .next t) :
    (s.inbox = [] ∧ t = s) ∨
    (∃ r rest, s.inbox = .read r :: rest ∧ t = { s with inbox := rest }) ∨
    (∃ rest, s.inbox = .reset :: rest ∧ t = State.applyReset { s with inbox := rest }) ∨
    (∃ w rest, s.inbox = .issue w :: rest ∧ s.fault ≠ 0 ∧ t = { s with inbox := rest }) ∨
    (∃ w rest, s.inbox = .issue w :: rest ∧ s.fault = 0 ∧ (∃ why, decode w = .illegal why) ∧
      t = State.raise { s with inbox := rest } .illegalCommand w) ∨
    (∃ w rest i, s.inbox = .issue w :: rest ∧ s.fault = 0 ∧ decode w = .legal i ∧
      exec i { s with inbox := rest } = .next t) := by
  unfold step at h
  split at h
  · next e => injection h with h; exact .inl ⟨e, h.symm⟩
  · next r rest e => injection h with h; exact .inr (.inl ⟨r, rest, e, h.symm⟩)
  · next rest e => injection h with h; exact .inr (.inr (.inl ⟨rest, e, h.symm⟩))
  · next w rest e =>
    by_cases hf : s.fault = 0
    · cases hd : decode w with
      | legal i =>
        rw [execWord_legal hd] at h
        exact .inr (.inr (.inr (.inr (.inr ⟨w, rest, i, e, hf, hd, h⟩))))
      | illegal why =>
        rw [execWord_illegal hd (by simpa using hf)] at h
        injection h with h
        exact .inr (.inr (.inr (.inr (.inl ⟨w, rest, e, hf, ⟨why, hd⟩, h.symm⟩))))
    · rw [execWord_halted w (by simpa using hf)] at h
      injection h with h
      exact .inr (.inr (.inr (.inl ⟨w, rest, e, hf, h.symm⟩)))

end Sys2Proof.Machine
end

