-- ==== Sys2Proof/Laws/PerInstr.lean ====
section
/-! SUPPORT. Statements about every command, one lemma per constructor. -/

namespace Sys2Proof.Laws

/-- The word of a command matches its row of the opcode map: `w & mask = match` (30_encoding.md R49). -/
def EncodeMatchesRow.Statement (i : Instr) : Prop := encode i &&& i.row.maskWord = i.row.matchWord

theorem EncodeMatchesRow.build : EncodeMatchesRow.Statement .build := by
  unfold EncodeMatchesRow.Statement; decide

theorem EncodeMatchesRow.crc8 (a b c : Byte) : EncodeMatchesRow.Statement (.crc8 a b c) :=
  joinFields_and_mask (mo := 0xFF) (ma := 0) (mb := 0) (mc := 0) (mi := 0xFFFFFFFF) (ro := 2) (ra := 0) (rb := 0)
    (rc := 0) (ri := 0) rfl rfl (by decide) (by simp) (by simp) (by simp) (by decide)

theorem EncodeMatchesRow.xcrc (a t : Byte) : EncodeMatchesRow.Statement (.xcrc a t) :=
  joinFields_and_mask (mo := 0xFF) (ma := 0) (mb := 0) (mc := 0xFF) (mi := 0xFFFFFFFF) (ro := 3) (ra := 0) (rb := 0)
    (rc := 0) (ri := 0) rfl rfl (by decide) (by simp) (by simp) (by decide) (by decide)

theorem EncodeMatchesRow.seqadv : EncodeMatchesRow.Statement .seqadv := by
  unfold EncodeMatchesRow.Statement; decide

theorem EncodeMatchesRow.pack (a start width : Byte) (imm : BitVec 32) :
    EncodeMatchesRow.Statement (.pack a start width imm) :=
  joinFields_and_mask (mo := 0xFF) (ma := 0) (mb := 0) (mc := 0) (mi := 0) (ro := 5) (ra := 0) (rb := 0)
    (rc := 0) (ri := 0) rfl rfl (by decide) (by simp) (by simp) (by simp) (by simp)

theorem EncodeMatchesRow.xsum (a b : Byte) : EncodeMatchesRow.Statement (.xsum a b) :=
  joinFields_and_mask (mo := 0xFF) (ma := 0) (mb := 0) (mc := 0xFF) (mi := 0xFFFFFFFF) (ro := 6) (ra := 0) (rb := 0)
    (rc := 0) (ri := 0) rfl rfl (by decide) (by simp) (by simp) (by decide) (by decide)

theorem EncodeMatchesRow.cnxt (v m : Byte) : EncodeMatchesRow.Statement (.cnxt v m) :=
  joinFields_and_mask (mo := 0xFF) (ma := 0) (mb := 0) (mc := 0xFF) (mi := 0xFFFFFFFF) (ro := 7) (ra := 0) (rb := 0)
    (rc := 0) (ri := 0) rfl rfl (by decide) (by simp) (by simp) (by decide) (by decide)

theorem EncodeMatchesRow.wrb (a c : Byte) : EncodeMatchesRow.Statement (.wrb a c) :=
  joinFields_and_mask (mo := 0xFF) (ma := 0) (mb := 0xFF) (mc := 0) (mi := 0xFFFFFFFF) (ro := 8) (ra := 0) (rb := 0)
    (rc := 0) (ri := 0) rfl rfl (by decide) (by simp) (by decide) (by simp) (by decide)

theorem EncodeMatchesRow.rdb (a : Byte) : EncodeMatchesRow.Statement (.rdb a) :=
  joinFields_and_mask (mo := 0xFF) (ma := 0) (mb := 0xFF) (mc := 0xFF) (mi := 0xFFFFFFFF) (ro := 9) (ra := 0) (rb := 0)
    (rc := 0) (ri := 0) rfl rfl (by decide) (by simp) (by decide) (by decide) (by decide)

theorem EncodeMatchesRow.stres (a : Byte) : EncodeMatchesRow.Statement (.stres a) :=
  joinFields_and_mask (mo := 0xFF) (ma := 0) (mb := 0xFF) (mc := 0xFF) (mi := 0xFFFFFFFF) (ro := 10) (ra := 0) (rb := 0)
    (rc := 0) (ri := 0) rfl rfl (by decide) (by simp) (by decide) (by decide) (by decide)

end Sys2Proof.Laws
end

