-- ==== Sys2Proof/Tests/Slice0.lean ====
section
/-! SUPPORT. Tests: words written out from the encodings, the checks of WellFormed and of the assembler, the worked examples
of the rules and of spec/95_test_vectors.md run through the step, and one witness for every statement with hypotheses. -/

namespace Sys2Proof.Tests

open Sys2Proof.Machine

/-! ### Small states -/

/-- The XCRC tables of the artificial test configuration T0 (95_test_vectors.md), not vehicle data. -/
def testTables : FrameTables where
  ken := [#v[0x3D, 0x7A, 0x12, 0xC5, 0x9E, 0x01, 0xF8, 0x66, 0xB3, 0x2C, 0x57, 0xE0, 0x8B, 0x49, 0xD4, 0x1F],
    Vector.replicate 16 0xC3]
  xd := [⟨0xA0, [2, 3, 4, 5, 6, 7], 0⟩, ⟨0x00, [3, 1, 2], 1⟩, ⟨0x35, [], 0⟩]
  ok := by decide

/-- The test configuration T0, with the procedure of R60 and 0x2F for `XTAB`. -/
def testConfig : Config where
  msize := 256
  seqReset := 0
  xtab := tableOf Config.tableSize fun i => divSteps 0x2F 8 (BitVec.ofNat 8 i)
  tables := testTables
  msize_ok := by decide

/-- The test configuration with half the memory (V10). -/
def smallConfig : Config := { testConfig with msize := 128, msize_ok := by decide }

/-- A block that is not halted, with its table built, the given bytes in `M`, `SEQ` and `RES`. -/
def testState (mem : Memory) (seq : SeqCount) (res : Byte) : State where
  cfg := testConfig
  mem := mem
  tab := j1850Table
  tabv := true
  seq := seq
  res := res
  fault := 0
  fcmd := 0
  inbox := []
  resets := 0

/-- The bytes at consecutive addresses. -/
def cells (a : Nat) : List Byte → Memory
  | [] => []
  | b :: bs => (a, b) :: cells (a + 1) bs

/-- What a function of the state sees after one step that issues the word, if the step answers next. -/
def afterWord {α : Type} (f : State → α) (w : Nat) (s : State) : Option α :=
  match step (s.withFetchWord 64 w) with
  | .next t => some (f t)
  | .fault _ => none
  | .refused _ => none

theorem testState_inv (mem : Memory) (seq : SeqCount) (res : Byte) (hm : Memory.wf mem) (hr : ∀ c ∈ mem, c.1 < 256) :
    (testState mem seq res).Inv :=
  ⟨hm, hr, by simp [testState], fun _ => rfl, fun _ i => tableAt_j1850Table i⟩

/-! ### Decoding: words of R46 and R49, written out field by field -/

/-- OP 01. -/
theorem test_decode_build : decode 0x0100000000000000#64 = .legal .build := by decide

/-- OP 02, A 11, B 07, C 70. -/
theorem test_decode_crc8 : decode 0x0211077000000000#64 = .legal (.crc8 0x11 7 0x70) := by decide

/-- OP 03, A 20, B 01. -/
theorem test_decode_xcrc : decode 0x0320010000000000#64 = .legal (.xcrc 0x20 1) := by decide

/-- OP 04. -/
theorem test_decode_seqadv : decode 0x0400000000000000#64 = .legal .seqadv := by decide

/-- OP 05, A 10, B 28, C 10, IMM 00002710. -/
theorem test_decode_pack : decode 0x0510281000002710#64 = .legal (.pack 0x10 40 16 0x2710) := by decide

/-- OP 06, A 40, B 09. -/
theorem test_decode_xsum : decode 0x0640090000000000#64 = .legal (.xsum 0x40 9) := by decide

/-- OP 07, A FD, B FE. -/
theorem test_decode_cnxt : decode 0x07FDFE0000000000#64 = .legal (.cnxt 0xFD 0xFE) := by decide

/-- OP 08, A 11, C F0. -/
theorem test_decode_wrb : decode 0x081100F000000000#64 = .legal (.wrb 0x11 0xF0) := by decide

/-- OP 09, A 10. -/
theorem test_decode_rdb : decode 0x0910000000000000#64 = .legal (.rdb 0x10) := by decide

/-- OP 0A, A 10. -/
theorem test_decode_stres : decode 0x0A10000000000000#64 = .legal (.stres 0x10) := by decide

/-- V11: 0x00 and 0x0B are unassigned, the all-ones word is illegal. -/
theorem test_decode_unassigned :
    decode 0x0000000000000000#64 = .illegal (.unassignedOpcode 0x00) ∧
    decode 0x0B00000000000000#64 = .illegal (.unassignedOpcode 0x0B) ∧
    decode 0xFFFFFFFFFFFFFFFF#64 = .illegal (.unassignedOpcode 0xFF) := by decide

/-- V3, V5, V6, V10, V11: a must-be-zero field that is not zero. -/
theorem test_decode_mustBeZero :
    decode 0x0100000000000001#64 = .illegal (.mustBeZero "BUILD") ∧
    decode 0x0210000000000001#64 = .illegal (.mustBeZero "CRC8") ∧
    decode 0x0320000100000000#64 = .illegal (.mustBeZero "XCRC") ∧
    decode 0x0401000000000000#64 = .illegal (.mustBeZero "SEQADV") ∧
    decode 0x0640090100000000#64 = .illegal (.mustBeZero "XSUM") ∧
    decode 0x0700100000000001#64 = .illegal (.mustBeZero "CNXT") ∧
    decode 0x0800010000000000#64 = .illegal (.mustBeZero "WRB") ∧
    decode 0x0900000100000000#64 = .illegal (.mustBeZero "RDB") ∧
    decode 0x0A00000000000001#64 = .illegal (.mustBeZero "STRES") := by decide

/-- V11: a legal word with an illegal operand. -/
theorem test_decode_pack_any_width : decode 0x05FFFFFFFFFFFFFF#64 = .legal (.pack 255 255 255 0xFFFFFFFF) := by decide

theorem test_decodeTableWord : decodeTableWord 64 0x0910000000000000 = some (.rdb 0x10) := by decide

/-! ### WellFormed -/

theorem test_wellFormed_accepts : (Instr.pack 0 0 1 0).WellFormed ∧ (Instr.pack 0 0 32 0).WellFormed := by decide

theorem test_wellFormed_refuses_width_zero : ¬ (Instr.pack 0x80 0 0 1).WellFormed := by decide

theorem test_wellFormed_refuses_width_33 : ¬ (Instr.pack 0x80 0 33 1).WellFormed := by decide

theorem test_tables_refuse_kidx : wellFormedTables [] [⟨0, [], 0⟩] = false := by decide

theorem test_tables_refuse_nine_offsets :
    wellFormedTables [Vector.replicate 16 0] [⟨0, List.replicate 9 0, 0⟩] = false := by decide

theorem test_tables_refuse_257_tables : wellFormedTables (List.replicate 257 (Vector.replicate 16 0)) [] = false := by
  decide +kernel

theorem test_tables_refuse_257_descriptors :
    wellFormedTables [Vector.replicate 16 0] (List.replicate 257 ⟨0, [], 0⟩) = false := by decide +kernel

/-! ### The assembler (R52, R53) -/

theorem test_assemble_text :
    assemble "BUILD ; the table\n  PACK 0x10, 40, 16, 10000\nCNXT 255,256" =
      some [.build, .pack 0x10 40 16 10000, .cnxt 255 0] := by decide

theorem test_assemble_pseudo :
    assemble "WRBS 0x10, 0x00, 0xF0\nPACKBE16 0x20, 2, 0xABCD\nATTACH 7" =
      some [.wrb 0x10 0, .wrb 0x11 0xF0, .pack 0x20 16 8 0xAB, .pack 0x20 24 8 0xCD, .stres 7] := by decide

theorem test_assemble_refuses :
    (AsmLine.wrb 256 0).assemble = none ∧ (AsmLine.pack 0 0 1 (2 ^ 32)).assemble = none ∧
    (AsmLine.cnxt 0 0).assemble = none ∧ (AsmLine.cnxt 0 257).assemble = none ∧
    (AsmLine.wrbs 0xFF [1, 2]).assemble = none ∧ (AsmLine.packbe16 0 31 0).assemble = none ∧
    (AsmLine.packbe16 0 0 65536).assemble = none ∧ (AsmLine.wrbs 0 []).assemble = none := by decide

theorem test_assemble_refuses_text : assemble "BUILD 1" = none ∧ assemble "build" = none ∧ assemble "RDB" = none := by
  decide

/-! ### The commands, on the examples of their rules -/

/-- R61: `TAB[0x0F] = 0xBB`, `TAB[0xFF] = 0xC4`. -/
theorem test_build : afterWord (fun t => (tableAt t.tab 0x0F, tableAt t.tab 0xFF, t.tabv)) 0x0100000000000000
    { testState [] 0 0 with tab := unbuiltTable 0, tabv := false } = some (0xBB, 0xC4, true) := by decide +kernel

/-- R64: the message `F0 05 FF FF 10 27 00` with final XOR 70. -/
theorem test_crc8 : afterWord State.res 0x0211077000000000
    (testState (cells 0x11 [0xF0, 0x05, 0xFF, 0xFF, 0x10, 0x27, 0x00]) 0 0) = some 0xB2 := by decide +kernel

/-- R63: the empty message gives the seed XOR the constant, and reads no byte. -/
theorem test_crc8_empty : afterWord State.res 0x0211007000000000 (testState [] 0 0) = some 0x8F := by decide

/-- R71: frame type 0 of T0, `SEQ = 0`; the other reading of the fold step (C1) would give D7. -/
theorem test_xcrc : afterWord State.res 0x0320000000000000
    (testState (cells 0x20 [0x00, 0xA0, 0x1F, 0xBC, 0x0A, 0x00, 0x00, 0x80]) 0 0) = some 0xDD := by decide +kernel

/-- V4: frame type 1, offsets in the order 3, 1, 2, `SEQ = 5`. -/
theorem test_xcrc_listed_order : afterWord State.res 0x0320010000000000
    (testState (cells 0x20 [0x00, 0xA0, 0x1F, 0xBC]) 5 0) = some 0xD7 := by decide +kernel

/-- R72: 15 wraps to 0. -/
theorem test_seqadv_wraps : afterWord State.seq 0x0400000000000000 (testState [] 15 0) = some 0 := by decide

/-- V7: `PACK 0x80, 12, 12, 0xABC` crosses a byte boundary. -/
theorem test_pack_crosses : afterWord State.mem 0x05800C0C00000ABC (testState (cells 0x80 [0, 0, 0]) 0 0) =
    some (cells 0x80 [0x00, 0xC0, 0xAB]) := by decide

/-- V7: `PACK 0x80, 7, 32, 0` touches five bytes and keeps the bits around the field. -/
theorem test_pack_five_bytes : afterWord State.mem 0x0580072000000000 (testState (cells 0x80 [255, 255, 255, 255, 255]) 0 0) =
    some (cells 0x80 [0x7F, 0, 0, 0, 0x80]) := by decide

/-- R83. -/
theorem test_xsum : afterWord State.res 0x0640090000000000
    (testState (cells 0x40 [0xD0, 0x08, 0xBF, 0x5B, 0x40, 0, 0, 0, 0]) 0 0) = some 0x7C := by decide

/-- R84, R85 and V9: `CNXT 253, 254` gives 0, its modulus byte 0xFE is the boundary at which the `count` counter resets;
`CNXT 254, 256` gives 255. -/
theorem test_cnxt : (0xFE : Nat) = Config.countResetsAt ∧
    afterWord State.res 0x07FDFE0000000000 (testState [] 0 0x55) = some 0x00 ∧
    afterWord State.res 0x07FE000000000000 (testState [] 0 0x55) = some 0xFF := by decide

/-- V9: a value above the modulus gives 0. -/
theorem test_cnxt_out_of_range : afterWord State.res 0x0710100000000000 (testState [] 0 0x55) = some 0x00 := by
  decide

/-- R90. -/
theorem test_wrb : afterWord (fun t => (t.mem, t.res)) 0x081100F000000000 (testState (cells 0x10 [1, 2, 3]) 0 9) =
    some (cells 0x10 [1, 0xF0, 3], 9) := by decide

/-- R91. -/
theorem test_rdb : afterWord State.res 0x0910000000000000 (testState (cells 0x10 [0x86]) 0 0) = some 0x86 := by
  decide

/-- R92. -/
theorem test_stres : afterWord (fun t => (t.mem, t.res)) 0x0A10000000000000 (testState [] 0 0x86) =
    some ([(0x10, 0x86)], 0x86) := by decide

/-! ### Faults -/

/-- V7, V5, V3: each cause once, with the priorities of R104 (width before range, table before range). -/
theorem test_faults :
    afterWord State.fault 0x05FF082100000000 (testState [] 0 0) = some 2 ∧
    afterWord State.fault 0x0300030000000000 (testState [] 0 0) = some 3 ∧
    afterWord State.fault 0x02F0110000000000 { testState [] 0 0 with tabv := false } = some 4 ∧
    afterWord State.fault 0x02F0110000000000 (testState [] 0 0) = some 5 ∧
    afterWord State.fault 0x03F9000000000000 (testState [] 0 0) = some 5 ∧
    afterWord State.fault 0x05FF070200000003 (testState [] 0 0) = some 5 ∧
    afterWord State.fault 0x06FF020000000000 (testState [] 0 0) = some 5 ∧
    afterWord State.fault 0x0B00000000000000 (testState [] 0 0) = some 1 := by decide

/-- V3, V7: the last byte of `M` is in range. -/
theorem test_range_edges :
    afterWord State.fault 0x05FF070100000001 (testState [] 0 0) = some 0 ∧
    afterWord State.fault 0x06FF010000000000 (testState [] 0 0) = some 0 ∧
    afterWord State.fault 0x03FF020000000000 (testState [] 0 0) = some 0 := by decide

/-- V12: the fault is recorded with its word, and a halted block ignores a legal word. -/
theorem test_halt :
    afterWord (fun t => (t.fault, t.fcmd, t.res)) 0x0200010000000000 { testState [] 0 0x33 with tabv := false } =
      some (4, 0x0200010000000000, 0x33) ∧
    afterWord (fun t => (t.fault, t.fcmd, t.mem)) 0x0800003400000000
      { testState [] 0 0 with fault := 4, fcmd := 0x0200010000000000 } = some (4, 0x0200010000000000, []) := by
  decide

/-- R120: reset leaves the halted state. -/
theorem test_reset_unhalts :
    (Host.Core.run Sys2Proof.core 1 { testState [] 7 9 with fault := 5, fcmd := 1, inbox := [.reset] }) =
      .next { testState [] 0 0 with tab := unbuiltTable 1, tabv := false, resets := 1 } := rfl

/-- The power-on state runs a word that is placed before it. -/
theorem test_runs_from_reset : afterWord State.mem 0x081100F000000000 State.reset = some [(0x11, 0xF0)] := by
  decide

/-! ### The host's duties, on programs P1 to P4 -/

theorem test_duties_kept :
    tableBuiltFirst [.build, .wrb 0 1, .crc8 0 1 0] = true ∧
    seededFrom testConfig [] [.wrb 0x10 0, .pack 0x10 0 4 5, .rdb 0x10] = true ∧
    oneAdvanceAtEnd [.xcrc 0x20 0, .stres 0x20, .seqadv, .rdb 0x20] = true ∧
    checksumLast testConfig [.wrb 0x11 1, .crc8 0x11 7 0x70, .stres 0x10, .rdb 0x16] = true ∧
    resultsKept false [.issue (encode (.crc8 0x11 7 0)), .issue (encode (.stres 0x10)), .issue (encode (.rdb 0x10))] =
      true := by decide

theorem test_duties_broken :
    tableBuiltFirst [.wrb 0 1, .crc8 0 1 0, .build] = false ∧
    seededFrom testConfig [] [.wrb 0x10 0, .rdb 0x11] = false ∧
    oneAdvanceAtEnd [.seqadv, .xcrc 0x20 0] = false ∧
    checksumLast testConfig [.crc8 0x11 7 0x70, .wrb 0x17 1, .stres 0x10] = false ∧
    resultsKept false [.issue (encode (.crc8 0x11 7 0)), .issue (encode (.rdb 0x10))] = false := by decide

/-! ### Witnesses: concrete states and operands that meet the hypotheses of each statement -/

theorem witness_StepRunsDecodedCommand :
    ({ testState [] 0 0 with inbox := [.issue 0x0400000000000000#64, .reset] } : State).inbox =
      .issue 0x0400000000000000#64 :: [.reset] ∧ decode 0x0400000000000000#64 = .legal .seqadv := by decide

theorem witness_OpcodeMapDecides :
    decode 0x0910000000000000#64 = .legal (.rdb 0x10) ∧ Instr.row (.rdb 0x10) ∈ opcodeMap := by decide

theorem witness_HostReadsChangeNothing_read :
    ({ testState [] 0 0 with inbox := [.read .seq] } : State).inbox = .read .seq :: [] := by decide

theorem witness_HostReadsChangeNothing_idle :
    (testState [] 0 0).inbox = [] := by decide

theorem witness_ResetAction :
    ({ testState [] 0 0 with fault := 5, inbox := [.reset] } : State).inbox = .reset :: [] := by decide

theorem witness_HaltedIgnoresEveryWord_word :
    ({ testState [] 0 0 with fault := 1, inbox := [.issue 0#64] } : State).fault ≠ 0 ∧
      ({ testState [] 0 0 with fault := 1, inbox := [.issue 0#64] } : State).inbox = .issue 0#64 :: [] := by decide

theorem witness_HaltedIgnoresEveryWord_read :
    ({ testState [] 0 0 with fault := 5, inbox := [.read .fcmd] } : State).fault ≠ 0 ∧
      ({ testState [] 0 0 with fault := 5, inbox := [.read .fcmd] } : State).inbox = .read .fcmd :: [] := by decide

theorem witness_HaltedIgnoresEveryWord_reset :
    ({ testState [] 0 0 with fault := 5, inbox := [.reset] } : State).fault ≠ 0 ∧
      ∃ t, step { testState [] 0 0 with fault := 5, inbox := [.reset] } = .next t ∧ t.fault = 0 :=
    ⟨by decide, _, rfl, rfl⟩

theorem witness_LowestFaultWins_raises :
    (testState [] 0 0).fault = 0 ∧ faultDue (testState [] 0 0) (.pack 0xFF 8 33 0) = some .badOperand := by decide

theorem witness_LowestFaultWins_completes :
    (testState [] 0 0).fault = 0 ∧ faultDue (testState [] 0 0) (.pack 0xFF 7 1 0) = none := by decide

theorem witness_LegalStatesKept :
    (testState [] 0 0).Inv ∧ ∃ t, step (testState [] 0 0) = .next t :=
    ⟨testState_inv _ _ _ Memory.wf_nil (by simp), _, rfl⟩

theorem witness_FaultRecordKept :
    (testState [] 0 0).FaultRecorded ∧ ∃ t, step (testState [] 0 0) = .next t := ⟨.inl ⟨rfl, rfl⟩, _, rfl⟩

theorem witness_ConfigurationConstant :
    ∃ t, step (testState [] 0 0) = .next t := ⟨_, rfl⟩

theorem witness_SequenceCounterWriters_seqadv :
    ∃ t, step { testState [] 15 0 with inbox := [.issue (encode .seqadv)] } = .next t ∧ t.seq ≠ (15 : BitVec 4) :=
    ⟨_, rfl, by decide⟩

theorem witness_SequenceCounterWriters_reset :
    ∃ t, step { testState [] 15 0 with inbox := [.reset] } = .next t ∧ t.seq ≠ (15 : BitVec 4) := ⟨_, rfl, by decide⟩

theorem witness_TableWriters :
    ∃ t, step { testState [] 0 0 with inbox := [.reset] } = .next t ∧ ¬ (t.tab = j1850Table ∧ t.tabv = true) :=
    ⟨_, rfl, fun h => absurd h.2 (by decide)⟩

theorem witness_ResultRegisterWriters_other :
    writesRes .seqadv = false ∧ ∃ t, exec .seqadv (testState [] 0 0) = .next t := ⟨rfl, _, rfl⟩

theorem witness_ResultRegisterWriters_faulting :
    ∃ t, exec (.xsum 0xFF 2) (testState [] 0 7) = .next t ∧ t.fault ≠ 0 := ⟨_, rfl, by decide⟩

theorem witness_MemoryFrame :
    0x12 ∉ writeAddrs (.wrb 0x11 0xF0) ∧ ∃ t, exec (.wrb 0x11 0xF0) (testState [] 0 0) = .next t :=
    ⟨by decide, _, rfl⟩

theorem witness_ReadBytesDetermineEffect :
    (testState [(0x10, 1), (0x11, 2)] 5 9).cfg = (testState [(0x10, 1), (0x11, 3)] 5 9).cfg ∧
      (testState [(0x10, 1), (0x11, 2)] 5 9).tabv = (testState [(0x10, 1), (0x11, 3)] 5 9).tabv ∧
      (testState [(0x10, 1), (0x11, 2)] 5 9).tab = (testState [(0x10, 1), (0x11, 3)] 5 9).tab ∧
      (testState [(0x10, 1), (0x11, 2)] 5 9).seq = (testState [(0x10, 1), (0x11, 3)] 5 9).seq ∧
      (testState [(0x10, 1), (0x11, 2)] 5 9).res = (testState [(0x10, 1), (0x11, 3)] 5 9).res ∧
      (testState [(0x10, 1), (0x11, 2)] 5 9).fault = (testState [(0x10, 1), (0x11, 3)] 5 9).fault ∧
      (testState [(0x10, 1), (0x11, 2)] 5 9).fcmd = (testState [(0x10, 1), (0x11, 3)] 5 9).fcmd ∧
      (∀ x ∈ readAddrs testConfig (.xsum 0x10 1),
        (testState [(0x10, 1), (0x11, 2)] 5 9).byteAt x = (testState [(0x10, 1), (0x11, 3)] 5 9).byteAt x) ∧
      (∃ t, exec (.xsum 0x10 1) (testState [(0x10, 1), (0x11, 2)] 5 9) = .next t) ∧
      ∃ t, exec (.xsum 0x10 1) (testState [(0x10, 1), (0x11, 3)] 5 9) = .next t :=
    ⟨rfl, rfl, rfl, rfl, rfl, rfl, rfl, by decide, ⟨_, rfl⟩, ⟨_, rfl⟩⟩

theorem witness_Crc8Pure :
    (testState [(0x10, 1)] 0 0).Inv ∧ (testState [(0xFF, 1)] 5 9).Inv ∧
      (testState [(0x10, 1)] 0 0).fault = 0 ∧ (testState [(0xFF, 1)] 5 9).fault = 0 ∧
      (testState [(0x10, 1)] 0 0).tabv = true ∧ (testState [(0xFF, 1)] 5 9).tabv = true ∧
      (0x10#8).toNat + (1#8).toNat ≤ testConfig.msize ∧ (0xFF#8).toNat + (1#8).toNat ≤ testConfig.msize ∧
      (testState [(0x10, 1)] 0 0).bytesAt 0x10 1 = (testState [(0xFF, 1)] 5 9).bytesAt 0xFF 1 :=
    ⟨testState_inv _ _ _ (by decide) (by decide), testState_inv _ _ _ (by decide) (by decide), rfl, rfl, rfl, rfl,
      by decide, by decide, by decide⟩

theorem witness_SeededProgramIndependentOfResetContents :
    seededFrom testConfig [0x0F] [.wrb 0x10 7, .pack 0x10 0 4 5, .rdb 0x10] = true ∧
      (testState [(0x0F, 3)] 0 0).cfg = ({ testState [(0x0F, 3)] 0 0 with resets := 1 } : State).cfg ∧
      (testState [(0x0F, 3)] 0 0).tabv = ({ testState [(0x0F, 3)] 0 0 with resets := 1 } : State).tabv ∧
      (testState [(0x0F, 3)] 0 0).tab = ({ testState [(0x0F, 3)] 0 0 with resets := 1 } : State).tab ∧
      (testState [(0x0F, 3)] 0 0).seq = ({ testState [(0x0F, 3)] 0 0 with resets := 1 } : State).seq ∧
      (testState [(0x0F, 3)] 0 0).res = ({ testState [(0x0F, 3)] 0 0 with resets := 1 } : State).res ∧
      (testState [(0x0F, 3)] 0 0).fault = ({ testState [(0x0F, 3)] 0 0 with resets := 1 } : State).fault ∧
      (testState [(0x0F, 3)] 0 0).fcmd = ({ testState [(0x0F, 3)] 0 0 with resets := 1 } : State).fcmd ∧
      (∀ x ∈ [0x0F], (testState [(0x0F, 3)] 0 0).byteAt x =
        ({ testState [(0x0F, 3)] 0 0 with resets := 1 } : State).byteAt x) ∧
      CleanRun [.wrb 0x10 7, .pack 0x10 0 4 5, .rdb 0x10] (testState [(0x0F, 3)] 0 0) :=
    ⟨by decide, rfl, rfl, rfl, rfl, rfl, rfl, rfl, by decide, by unfold CleanRun; decide⟩

theorem witness_RunIsFoldOfCommands :
    (testState [] 0 0).inbox = [] := by decide

theorem witness_BuiltFirstNeverTableFault :
    ({ testState [] 0 0 with tabv := false } : State).fault = 0 ∧ tableBuiltFirst [.build, .crc8 0 0 0] = true :=
    by decide

theorem witness_CounterStableInCycle :
    oneAdvanceAtEnd [.xcrc 0x20 2, .seqadv] = true ∧
      [.xcrc 0x20 2, .seqadv] = ([] : List Instr) ++ .xcrc 0x20 2 :: [.seqadv] ∧
      CleanRun [.xcrc 0x20 2, .seqadv] (testState [] 15 0) := ⟨by decide, rfl, by unfold CleanRun; decide⟩

theorem witness_ReadReturnsLatestWrite :
    (∀ i ∈ [Instr.wrb 0x12 3, .stres 0x10, .pack 0x12 0 8 1], (0x11#8).toNat ∉ writeAddrs i) ∧
      CleanRun (.wrb 0x11 0xF0 :: [.wrb 0x12 3, .stres 0x10, .pack 0x12 0 8 1] ++ [.rdb 0x11]) (testState [] 0 0) :=
    ⟨by decide, by unfold CleanRun; decide⟩

theorem witness_SeedingWritesBuffer :
    (AsmLine.wrbs 0xFE [1, 2]).assemble = some [.wrb 0xFE 1, .wrb 0xFF 2] ∧ (testState [] 0 0).fault = 0 ∧
      0xFE + [1, 2].length ≤ testConfig.msize := by decide

theorem witness_BigEndianPack :
    (AsmLine.packbe16 0xE0 30 0xABCD).assemble = some [.pack 0xE0 240 8 0xAB, .pack 0xE0 248 8 0xCD] ∧
      (testState [] 0 0).fault = 0 ∧ 0xE0 + 30 + 1 < testConfig.msize := by decide

theorem witness_Crc8IsSerialCrc :
    (testState [] 0 0).Inv ∧ (testState [] 0 0).fault = 0 ∧ (testState [] 0 0).tabv = true ∧
      (0xF0#8).toNat + (16#8).toNat ≤ testConfig.msize :=
    ⟨testState_inv _ _ _ Memory.wf_nil (by simp), rfl, rfl, by decide⟩

theorem witness_Crc8Linear :
    [0x01#8, 0x02#8].length = [0xFF#8, 0x80#8].length := by decide

theorem witness_XcrcIsTableCrc :
    testConfig.tables.xd[(1#8).toNat]? = some ⟨0x00, [3, 1, 2], 1⟩ ∧
      testConfig.tables.ken[1]? = some (Vector.replicate 16 0xC3) ∧ (testState [] 0 0).fault = 0 ∧
      ∀ off ∈ ([3, 1, 2] : List (Fin 8)), (0xFC#8).toNat + off.val < testConfig.msize := by decide

theorem witness_PackWritesField :
    (testState [] 0 0).fault = 0 ∧ 1 ≤ (1#8).toNat ∧ (1#8).toNat ≤ 32 ∧
      (0xE0#8).toNat + ((255#8).toNat + (1#8).toNat - 1) / 8 < testConfig.msize := by decide

theorem witness_PackTruncates :
    (testState [] 0 0).fault = 0 ∧ 1 ≤ (8#8).toNat ∧ (8#8).toNat ≤ 32 ∧
      (0x80#8).toNat + ((0#8).toNat + (8#8).toNat - 1) / 8 < testConfig.msize ∧
      (0x1FF#32).toNat % 2 ^ (8#8).toNat = (0xFF#32).toNat % 2 ^ (8#8).toNat := by decide

theorem witness_XsumIsParity :
    (testState [] 0 0).fault = 0 ∧ (0xFF#8).toNat + (1#8).toNat ≤ testConfig.msize := by decide

theorem witness_AttachedXsumIsZero :
    (testState [] 0 0).fault = 0 ∧ (1#8).toNat < 255 ∧ (0xFE#8).toNat + (1#8).toNat < testConfig.msize := by decide

theorem witness_CnxtPeriod :
    (testState [] 0 0).fault = 0 ∧ 256 = (if (0#8) = 0 then 256 else (0#8).toNat) ∧ (255#8).toNat < 256 := by decide

theorem witness_IllegalWordRaises :
    decode 0#64 = .illegal (.unassignedOpcode 0) ∧ (testState [] 0 0).fault = 0 := by decide

theorem witness_FaultEntry :
    (testState [] 0 0).fault = 0 ∧ ∃ t, execWord 0#64 (testState [] 0 0) = .next t ∧ t.fault ≠ 0 :=
    ⟨rfl, _, rfl, by decide⟩

theorem witness_BuildFillsTable :
    (testState [] 0 0).fault = 0 ∧ opField 0x0100000000000001#64 = 0x01 ∧ 0x0100000000000001#64 ≠ encode .build :=
    by decide

theorem witness_SeqadvCounts :
    (testState [] 15 0).fault = 0 ∧ opField 0x0401000000000000#64 = 0x04 ∧ 0x0401000000000000#64 ≠ encode .seqadv :=
    by decide

theorem witness_SeqadvCounts_other :
    (testState [] 15 0).fault = 0 ∧ Instr.cnxt 15 16 ≠ .seqadv ∧ ∃ t, exec (.cnxt 15 16) (testState [] 15 0) = .next t :=
    ⟨rfl, by decide, _, rfl⟩

theorem witness_CnxtSuccessor_illegal :
    (testState [] 0 0).fault = 0 ∧ opField 0x0700100000000001#64 = 0x07 ∧
      (cField 0x0700100000000001#64 ≠ 0 ∨ immField 0x0700100000000001#64 ≠ 0) := by decide

theorem witness_CnxtSuccessor_below :
    254 = (if (254#8) = 0 then 256 else (254#8).toNat) ∧ (253#8).toNat < 254 := by decide

theorem witness_CnxtSuccessor_above :
    254 = (if (254#8) = 0 then 256 else (254#8).toNat) ∧ 254 ≤ (254#8).toNat := by decide

theorem witness_WrbWritesByte_illegal :
    (testState [] 0 0).fault = 0 ∧ opField 0x0800010000000000#64 = 0x08 ∧
      (bField 0x0800010000000000#64 ≠ 0 ∨ immField 0x0800010000000000#64 ≠ 0) := by decide

theorem witness_WrbWritesByte_outside :
    ({ testState [] 0 0 with cfg := smallConfig } : State).fault = 0 ∧ smallConfig.msize ≤ (128#8).toNat := by decide

theorem witness_WrbWritesByte_inside :
    ({ testState [] 0 0 with cfg := smallConfig } : State).fault = 0 ∧ (127#8).toNat < smallConfig.msize := by decide

theorem witness_RdbReadsByte_illegal :
    (testState [] 0 0).fault = 0 ∧ opField 0x0900000100000000#64 = 0x09 ∧
      (bField 0x0900000100000000#64 ≠ 0 ∨ cField 0x0900000100000000#64 ≠ 0 ∨ immField 0x0900000100000000#64 ≠ 0) :=
    by decide

theorem witness_RdbReadsByte_outside :
    ({ testState [] 0 0 with cfg := smallConfig } : State).fault = 0 ∧ smallConfig.msize ≤ (128#8).toNat := by decide

theorem witness_RdbReadsByte_inside :
    ({ testState [] 0 0 with cfg := smallConfig } : State).fault = 0 ∧ (127#8).toNat < smallConfig.msize := by decide

theorem witness_StresStoresResult_illegal :
    (testState [] 0 0).fault = 0 ∧ opField 0x0A00000000000001#64 = 0x0A ∧
      (bField 0x0A00000000000001#64 ≠ 0 ∨ cField 0x0A00000000000001#64 ≠ 0 ∨ immField 0x0A00000000000001#64 ≠ 0) :=
    by decide

theorem witness_StresStoresResult_outside :
    ({ testState [] 0 0 with cfg := smallConfig } : State).fault = 0 ∧ smallConfig.msize ≤ (128#8).toNat := by decide

theorem witness_StresStoresResult_inside :
    ({ testState [] 0 0 with cfg := smallConfig } : State).fault = 0 ∧ (127#8).toNat < smallConfig.msize := by decide

end Sys2Proof.Tests
end

section
/-! SUPPORT. Proofs of the statements of 00_scope.md: every step answers a next state (O13), and the registers, the
configuration and the bytes a command reads determine what it does (O27). -/

namespace Sys2Proof.Machine

/-! ### Every step answers next (R9) -/

/-- A command answers a next state, halted or not (R9, R103). -/
theorem exec_answers_next (i : Instr) (s : State) : ∃ t, exec i s = .next t := by
  by_cases h : s.fault = 0
  · obtain ⟨t, e, -⟩ := exec_running i h
    exact ⟨t, e⟩
  · exact ⟨s, exec_halted i h⟩

/-- A word answers a next state, legal or not (R9, R50). -/
theorem execWord_answers_next (w : Word) (s : State) : ∃ t, execWord w s = .next t := by
  cases hd : decode w with
  | legal i => exact execWord_legal hd ▸ exec_answers_next i s
  | illegal why =>
    by_cases h : s.fault = 0
    · exact ⟨_, execWord_illegal hd h⟩
    · exact ⟨s, execWord_halted w h⟩

theorem step_answers_next (s : State) : ∃ t, step s = .next t := by
  unfold step
  split
  · exact ⟨_, rfl⟩
  · exact ⟨_, rfl⟩
  · exact ⟨_, rfl⟩
  · exact execWord_answers_next _ _

/-- Settles O13, by the host's next action: only an issued word runs a command, and no command and no word stops. -/
theorem everyStepAnswersNext : Obligations.EveryStepAnswersNext :=
  ⟨exec_answers_next, step_answers_next⟩

/-! ### Two states a command cannot tell apart -/

/-- Two states with one configuration and the same registers; `TAB` counts only while `TABV` is 1 (R17, R25). -/
structure State.SameRegs (s₁ s₂ : State) : Prop where
  cfg : s₁.cfg = s₂.cfg
  tabv : s₁.tabv = s₂.tabv
  tab : s₁.tabv = true → s₁.tab = s₂.tab
  seq : s₁.seq = s₂.seq
  res : s₁.res = s₂.res
  fault : s₁.fault = s₂.fault
  fcmd : s₁.fcmd = s₂.fcmd

/-- Two states that read the same at each of the addresses. -/
def State.SameBytes (addrs : List Nat) (s₁ s₂ : State) : Prop := ∀ x ∈ addrs, s₁.byteAt x = s₂.byteAt x

/-- What is left of agreement after a command that writes the addresses: the registers, and, if it raised no fault, the
bytes it wrote. -/
structure State.SameEffect (written : List Nat) (t₁ t₂ : State) : Prop where
  regs : State.SameRegs t₁ t₂
  bytes : t₁.fault = 0 → State.SameBytes written t₁ t₂

section

variable {s₁ s₂ t₁ t₂ : State} {written : List Nat}

/-! ### The state's operations keep the agreement -/

theorem State.SameRegs.setTable (h : State.SameRegs s₁ s₂) (t : ByteTable) :
    State.SameRegs (s₁.setTable t) (s₂.setTable t) where
  __ := h
  tabv := rfl
  tab _ := rfl

theorem State.SameRegs.setRes (h : State.SameRegs s₁ s₂) (v : Byte) : State.SameRegs (s₁.setRes v) (s₂.setRes v) where
  __ := h
  res := rfl

theorem State.SameRegs.setSeq (h : State.SameRegs s₁ s₂) (v : SeqCount) :
    State.SameRegs (s₁.setSeq v) (s₂.setSeq v) where
  __ := h
  seq := rfl

theorem State.SameRegs.raise (h : State.SameRegs s₁ s₂) (cause : FaultCause) (w : Word) :
    State.SameRegs (s₁.raise cause w) (s₂.raise cause w) where
  __ := h
  fault := rfl
  fcmd := rfl

theorem State.SameRegs.writeBytes (h : State.SameRegs s₁ s₂) (a : Nat) (vs : List Byte) :
    State.SameRegs (s₁.writeBytes a vs) (s₂.writeBytes a vs) where
  cfg := by simpa using h.cfg
  tabv := by simpa using h.tabv
  tab := by simpa using h.tab
  seq := by simpa using h.seq
  res := by simpa using h.res
  fault := by simpa using h.fault
  fcmd := by simpa using h.fcmd

/-- Without a written byte the effect is on the registers alone. -/
theorem State.SameRegs.sameEffect_nil (h : State.SameRegs s₁ s₂) : State.SameEffect [] s₁ s₂ :=
  ⟨h, fun _ _ hx => absurd hx List.not_mem_nil⟩

/-- A raised fault promises nothing of the bytes the command would have written (R101). -/
theorem State.SameRegs.sameEffect_raise (h : State.SameRegs s₁ s₂) (cause : FaultCause) (w : Word) :
    State.SameEffect written (s₁.raise cause w) (s₂.raise cause w) :=
  ⟨h.raise cause w, fun h0 => absurd h0 cause.code_ne_zero⟩

/-- The written bytes are those of the list, whatever stood there before. -/
theorem State.SameRegs.sameEffect_writeBytes (h : State.SameRegs s₁ s₂) (a : Nat) (vs : List Byte) :
    State.SameEffect (addrRange a vs.length) (s₁.writeBytes a vs) (s₂.writeBytes a vs) := by
  refine ⟨h.writeBytes a vs, fun _ x hx => ?_⟩
  obtain ⟨hle, hlt⟩ := mem_addrRange.mp hx
  have hin : a ≤ x ∧ x - a < vs.length := ⟨hle, by omega⟩
  rw [State.byteAt_writeBytes, State.byteAt_writeBytes, dif_pos hin, dif_pos hin]

/-- `MemRead` answers the same bytes, or raises in both states (R31). -/
theorem State.SameRegs.memRead_eq (h : State.SameRegs s₁ s₂) {a n : Nat}
    (hb : State.SameBytes (addrRange a n) s₁ s₂) : s₁.memRead a n = s₂.memRead a n := by
  have hbytes : s₁.bytesAt a n = s₂.bytesAt a n :=
    State.bytesAt_congr fun i hi => hb _ (mem_addrRange.mpr ⟨Nat.le_add_right a i, Nat.add_lt_add_left hi a⟩)
  rw [State.memRead, State.memRead, h.cfg, hbytes]

/-- `MemWrite` of the same bytes, or the raise in both states (R31). -/
theorem State.SameRegs.sameEffect_memWrite (h : State.SameRegs s₁ s₂) (a : Nat) (vs : List Byte) (cause : FaultCause)
    (w : Word) : State.SameEffect (addrRange a vs.length) ((s₁.memWrite a vs).getD (s₁.raise cause w))
      ((s₂.memWrite a vs).getD (s₂.raise cause w)) := by
  rw [State.memWrite, State.memWrite, h.cfg]
  split
  · exact h.sameEffect_raise cause w
  · exact h.sameEffect_writeBytes a vs

/-- The frame every command runs in: a halted block is left as it is, so only the effect has to be compared (R103). -/
theorem State.SameRegs.command {effect : State → State} (h : State.SameRegs s₁ s₂)
    (he : State.SameEffect written (effect s₁) (effect s₂)) (e₁ : s₁.command effect = .next t₁)
    (e₂ : s₂.command effect = .next t₂) : State.SameEffect written t₁ t₂ := by
  have hhalt : s₁.halted = s₂.halted := by rw [State.halted, State.halted, h.fault]
  rcases State.command_next e₁ with ⟨h₁, rfl⟩ | ⟨h₁, rfl⟩ <;>
    rcases State.command_next e₂ with ⟨h₂, rfl⟩ | ⟨h₂, rfl⟩
  · exact ⟨h, fun h0 => absurd h0 (State.halted_eq_true.mp h₁)⟩
  · simp [h₁, h₂] at hhalt
  · simp [h₁, h₂] at hhalt
  · exact he

/-! ### Each command, from two such states -/

theorem execBuild_sameEffect (h : State.SameRegs s₁ s₂) (e₁ : execBuild s₁ = .next t₁)
    (e₂ : execBuild s₂ = .next t₂) : State.SameEffect [] t₁ t₂ := by
  refine h.command ?_ e₁ e₂
  exact (h.setTable _).sameEffect_nil

/-- `CRC8` looks at `TAB` only after the check of `TABV` (R17, R64). -/
theorem execCrc8_sameEffect {a b c : Byte} (h : State.SameRegs s₁ s₂)
    (hb : State.SameBytes (addrRange a.toNat b.toNat) s₁ s₂) (e₁ : execCrc8 a b c s₁ = .next t₁)
    (e₂ : execCrc8 a b c s₂ = .next t₂) : State.SameEffect [] t₁ t₂ := by
  refine h.command ?_ e₁ e₂
  have hnot : s₁.tableNotBuilt = s₂.tableNotBuilt := by rw [State.tableNotBuilt, State.tableNotBuilt, h.tabv]
  rw [hnot, h.memRead_eq hb]
  split
  · exact h.sameEffect_raise _ _
  · next hbuilt =>
    have htab : s₁.tab = s₂.tab := h.tab (by simpa [State.tableNotBuilt, h.tabv] using hbuilt)
    cases s₂.memRead a.toNat b.toNat with
    | none => exact h.sameEffect_raise _ _
    | some bytes => simpa only [htab] using (h.setRes _).sameEffect_nil

theorem execXcrc_sameEffect {a t : Byte} (h : State.SameRegs s₁ s₂)
    (hb : State.SameBytes (readAddrs s₁.cfg (.xcrc a t)) s₁ s₂) (e₁ : execXcrc a t s₁ = .next t₁)
    (e₂ : execXcrc a t s₂ = .next t₂) : State.SameEffect [] t₁ t₂ := by
  refine h.command ?_ e₁ e₂
  simp only [readAddrs] at hb
  simp only [← h.cfg, ← h.seq]
  split
  · next ht =>
    rw [dif_pos ht] at hb
    split
    · exact h.sameEffect_raise _ _
    · simpa only [List.map_congr_left hb] using (h.setRes _).sameEffect_nil
  · exact h.sameEffect_raise _ _

theorem execSeqadv_sameEffect (h : State.SameRegs s₁ s₂) (e₁ : execSeqadv s₁ = .next t₁)
    (e₂ : execSeqadv s₂ = .next t₂) : State.SameEffect [] t₁ t₂ := by
  refine h.command ?_ e₁ e₂
  rw [h.seq]
  exact (h.setSeq _).sameEffect_nil

/-- `PACK` writes back the range it has read, so what it writes depends on what it reads (R36, R81). -/
theorem execPack_sameEffect {a start width : Byte} {imm : BitVec 32} (h : State.SameRegs s₁ s₂)
    (hb : State.SameBytes (readAddrs s₁.cfg (.pack a start width imm)) s₁ s₂)
    (e₁ : execPack a start width imm s₁ = .next t₁) (e₂ : execPack a start width imm s₂ = .next t₂) :
    State.SameEffect (writeAddrs (.pack a start width imm)) t₁ t₂ := by
  refine h.command ?_ e₁ e₂
  simp only [readAddrs] at hb
  simp only [writeAddrs]
  split
  · next hw =>
    rw [if_pos hw] at hb
    simp only [h.memRead_eq hb]
    cases hr : s₂.memRead (packLo a.toNat start.toNat) (packLen a.toNat start.toNat width.toNat) with
    | none => exact h.sameEffect_raise _ _
    | some buf =>
      have hlen : buf.length = packLen a.toNat start.toNat width.toNat := by
        rw [(State.memRead_eq_some.mp hr).2, State.length_bytesAt]
      simpa only [length_insertBits, hlen] using h.sameEffect_writeBytes (packLo a.toNat start.toNat)
        (insertBits buf (start.toNat % 8) width.toNat imm)
  · exact h.sameEffect_raise _ _

theorem execXsum_sameEffect {a b : Byte} (h : State.SameRegs s₁ s₂)
    (hb : State.SameBytes (addrRange a.toNat b.toNat) s₁ s₂) (e₁ : execXsum a b s₁ = .next t₁)
    (e₂ : execXsum a b s₂ = .next t₂) : State.SameEffect [] t₁ t₂ := by
  refine h.command ?_ e₁ e₂
  rw [h.memRead_eq hb]
  cases s₂.memRead a.toNat b.toNat with
  | none => exact h.sameEffect_raise _ _
  | some bytes => exact (h.setRes _).sameEffect_nil

theorem execRdb_sameEffect {a : Byte} (h : State.SameRegs s₁ s₂) (hb : State.SameBytes [a.toNat] s₁ s₂)
    (e₁ : execRdb a s₁ = .next t₁) (e₂ : execRdb a s₂ = .next t₂) : State.SameEffect [] t₁ t₂ := by
  refine h.command ?_ e₁ e₂
  rw [h.cfg, hb a.toNat (List.mem_singleton_self _)]
  split
  · exact h.sameEffect_raise _ _
  · exact (h.setRes _).sameEffect_nil

theorem execCnxt_sameEffect {v m : Byte} (h : State.SameRegs s₁ s₂) (e₁ : execCnxt v m s₁ = .next t₁)
    (e₂ : execCnxt v m s₂ = .next t₂) : State.SameEffect [] t₁ t₂ := by
  refine h.command ?_ e₁ e₂
  exact (h.setRes _).sameEffect_nil

theorem execWrb_sameEffect {a c : Byte} (h : State.SameRegs s₁ s₂) (e₁ : execWrb a c s₁ = .next t₁)
    (e₂ : execWrb a c s₂ = .next t₂) : State.SameEffect [a.toNat] t₁ t₂ := by
  refine h.command ?_ e₁ e₂
  exact h.sameEffect_memWrite a.toNat [c] _ _

/-- `STRES` writes `RES`, which is the same register in both states (R92). -/
theorem execStres_sameEffect {a : Byte} (h : State.SameRegs s₁ s₂) (e₁ : execStres a s₁ = .next t₁)
    (e₂ : execStres a s₂ = .next t₂) : State.SameEffect [a.toNat] t₁ t₂ := by
  refine h.command ?_ e₁ e₂
  rw [h.res]
  exact h.sameEffect_memWrite a.toNat [s₂.res] _ _

/-- From two states with the same registers and the same bytes at the addresses a command reads, the command does the same
(R36). -/
theorem exec_sameEffect (i : Instr) (h : State.SameRegs s₁ s₂)
    (hb : State.SameBytes (readAddrs s₁.cfg i) s₁ s₂) (e₁ : exec i s₁ = .next t₁) (e₂ : exec i s₂ = .next t₂) :
    State.SameEffect (writeAddrs i) t₁ t₂ := by
  cases i with
  | build => exact execBuild_sameEffect h e₁ e₂
  | crc8 a b c => exact execCrc8_sameEffect h hb e₁ e₂
  | xcrc a t => exact execXcrc_sameEffect h hb e₁ e₂
  | seqadv => exact execSeqadv_sameEffect h e₁ e₂
  | pack a start width imm => exact execPack_sameEffect h hb e₁ e₂
  | xsum a b => exact execXsum_sameEffect h hb e₁ e₂
  | cnxt v m => exact execCnxt_sameEffect h e₁ e₂
  | wrb a c => exact execWrb_sameEffect h e₁ e₂
  | rdb a => exact execRdb_sameEffect h hb e₁ e₂
  | stres a => exact execStres_sameEffect h e₁ e₂

end

/-- Settles O27, by the command: its checks and its effect are functions of the registers and of the bytes it reads. -/
theorem readBytesDetermineEffect : Obligations.ReadBytesDetermineEffect := by
  intro i s₁ s₂ t₁ t₂ hcfg htabv htab hseq hres hfault hfcmd hread e₁ e₂
  obtain ⟨regs, hbytes⟩ := exec_sameEffect i ⟨hcfg, htabv, htab, hseq, hres, hfault, hfcmd⟩ hread e₁ e₂
  exact ⟨regs.tabv, regs.tab, regs.seq, regs.res, regs.fault, regs.fcmd, hbytes⟩

end Sys2Proof.Machine
end

section
/-! SUPPORT. Proofs of the statements of 10_state.md: what each step keeps (O18, O20, O22), which commands write which
register (O23, O24, O25), how the host's words, reads and resets meet the block (O7, O8, O10, O11, O30), and the power-on
state (O12, O19, O21). -/

namespace Sys2Proof

/-! ### Words and commands -/

theorem requireZero_eq_legal {m : String} {zero : Bool} {i j : Instr} :
    requireZero m zero i = .legal j ↔ zero = true ∧ i = j := by
  cases zero <;> simp [requireZero]

/-- The decoder reads from the word of a command that command (R46, R47, R49). -/
theorem decode_encode (i : Instr) : decode (encode i) = .legal i := by
  cases i <;>
    simp [encode, decode, opField_joinFields, aField_joinFields, bField_joinFields, cField_joinFields,
      immField_joinFields, requireZero_eq_legal]

/-- A word that spells a command is the word of that command: the fields the command does not use are zero (R47, R50), so
its fields joined are the word. -/
theorem encode_of_decode {w : Word} {i : Instr} (h : decode w = .legal i) : encode i = w := by
  rw [← joinFields_fields w]
  unfold decode at h
  split at h <;>
    simp only [requireZero_eq_legal, Bool.and_eq_true, beq_iff_eq, Decoded.legal.injEq, reduceCtorEq] at h
  case h_5 _ hop =>
    rw [← h, encode, hop]
  all_goals
    obtain ⟨hzero, rfl⟩ := h
    simp only [encode, *]

theorem tableWord_toNat (w : Word) : tableWord 64 w.toNat = w := by
  rw [tableWord, Nat.mod_eq_of_lt w.isLt, BitVec.ofNat_toNat, BitVec.setWidth_eq]

end Sys2Proof

namespace Sys2Proof.Machine

variable {s t : State}

/-! ### The fault a command is due -/

/-- The causes of R100 in the order of R104. No legal word is due `IllegalCommand`. -/
theorem faultDue_eq (s : State) (i : Instr) :
    faultDue s i =
      if faultCondition s i .badOperand then some .badOperand
      else if faultCondition s i .badFrameType then some .badFrameType
      else if faultCondition s i .tableNotBuilt then some .tableNotBuilt
      else if faultCondition s i .addressRange then some .addressRange
      else none := by
  have hlegal : faultCondition s i .illegalCommand = false := rfl
  split_ifs with hbad hframe htable hrange <;> simp [faultDue, faultOrder, *]

/-- The fault due depends on the configuration and `TABV` alone. -/
theorem faultDue_congr (hc : s.cfg = t.cfg) (hv : s.tabv = t.tabv) (i : Instr) : faultDue s i = faultDue t i := by
  have hcond : faultCondition s i = faultCondition t i := by
    funext cause
    cases cause <;> simp only [faultCondition, hc, hv]
  rw [faultDue, faultDue, hcond]

theorem faultDue_crc8 (s : State) (a b c : Byte) :
    faultDue s (.crc8 a b c) =
      if s.tabv = false then some .tableNotBuilt
      else if s.cfg.msize < a.toNat + b.toNat then some .addressRange else none := by
  simp [faultDue_eq, faultCondition, rangeFault]

theorem faultDue_xcrc_badFrameType (a : Byte) {t : Byte} (ht : s.cfg.nx ≤ t.toNat) :
    faultDue s (.xcrc a t) = some .badFrameType := by
  simp [faultDue_eq, faultCondition, ht]

theorem faultDue_xcrc (a : Byte) {t : Byte} (ht : t.toNat < s.cfg.tables.xd.length) :
    faultDue s (.xcrc a t) =
      if (offsetAddrs a.toNat (s.cfg.tables.xd[t.toNat]).offs).any fun x => decide (s.cfg.msize ≤ x) then
        some .addressRange
      else none := by
  simp [faultDue_eq, faultCondition, rangeFault, readAddrs, Config.nx, ht, not_le.mpr ht]

/-- The condition of `BadOperand` is a width outside 1..32 (R81, R100). -/
theorem faultDue_pack (s : State) (a start width : Byte) (imm : BitVec 32) :
    faultDue s (.pack a start width imm) =
      if ¬ (1 ≤ width.toNat ∧ width.toNat ≤ 32) then some .badOperand
      else if s.cfg.msize ≤ packHi a.toNat start.toNat width.toNat then some .addressRange else none := by
  have hzero : width = 0#8 ↔ width.toNat = 0 := BitVec.toNat_inj.symm
  have hwidth : (width = 0#8 ∨ 32 < width.toNat) ↔ ¬ (1 ≤ width.toNat ∧ width.toNat ≤ 32) := by rw [hzero]; omega
  simp [faultDue_eq, faultCondition, rangeFault, hwidth]

theorem faultDue_xsum (s : State) (a b : Byte) :
    faultDue s (.xsum a b) = if s.cfg.msize < a.toNat + b.toNat then some .addressRange else none := by
  simp [faultDue_eq, faultCondition, rangeFault]

theorem faultDue_wrb (s : State) (a c : Byte) :
    faultDue s (.wrb a c) = if s.cfg.msize ≤ a.toNat then some .addressRange else none := by
  simp [faultDue_eq, faultCondition, rangeFault]

theorem faultDue_rdb (s : State) (a : Byte) :
    faultDue s (.rdb a) = if s.cfg.msize ≤ a.toNat then some .addressRange else none := by
  simp [faultDue_eq, faultCondition, rangeFault]

theorem faultDue_stres (s : State) (a : Byte) :
    faultDue s (.stres a) = if s.cfg.msize ≤ a.toNat then some .addressRange else none := by
  simp [faultDue_eq, faultCondition, rangeFault]

/-! ### What a command that raises no fault can write -/

/-- A command that completes writes one of four things: the table (`BUILD`), the counter (`SEQADV`), the result register
(the commands of R15), or bytes that lie in `M` (R13, R14, R15, R36). -/
inductive Completes (i : Instr) (s : State) : State → Prop where
  | table (hi : i = .build) : Completes i s (s.setTable j1850Table)
  | counter (hi : i = .seqadv) : Completes i s (s.setSeq (s.seq + 1))
  | result (v : Byte) (hi : writesRes i = true) : Completes i s (s.setRes v)
  | bytes (a : Nat) (vs : List Byte) (hin : a + vs.length ≤ s.cfg.msize) : Completes i s (s.writeBytes a vs)

/-- A command in a block that is not halted raises the fault it is due, or is due none and completes (R100, R104). -/
theorem exec_outcome (i : Instr) (h : s.fault = 0) :
    ∃ t, exec i s = .next t ∧
      ((∃ cause, faultDue s i = some cause ∧ t = s.raise cause (encode i)) ∨
        (faultDue s i = none ∧ Completes i s t)) := by
  cases i with
  | build => exact ⟨_, execBuild_running h, .inr ⟨rfl, .table rfl⟩⟩
  | crc8 a b c =>
    rcases execCrc8_running a b c h with ⟨hv, e⟩ | ⟨hv, hr, e⟩ | ⟨hv, hr, e⟩
    · exact ⟨_, e, .inl ⟨_, by simp [faultDue_crc8, hv], rfl⟩⟩
    · exact ⟨_, e, .inl ⟨_, by simp [faultDue_crc8, hv, hr], rfl⟩⟩
    · exact ⟨_, e, .inr ⟨by simp [faultDue_crc8, hv, hr], .result _ rfl⟩⟩
  | xcrc a t =>
    rcases execXcrc_running a t h with ⟨ht, e⟩ | ⟨ht, ⟨hx, e⟩ | ⟨hx, e⟩⟩
    · exact ⟨_, e, .inl ⟨_, faultDue_xcrc_badFrameType a ht, rfl⟩⟩
    · exact ⟨_, e, .inl ⟨_, by rw [faultDue_xcrc a ht, if_pos (by simpa using hx)], rfl⟩⟩
    · exact ⟨_, e, .inr ⟨by rw [faultDue_xcrc a ht, if_neg (by simpa using hx)], .result _ rfl⟩⟩
  | seqadv => exact ⟨_, execSeqadv_running h, .inr ⟨rfl, .counter rfl⟩⟩
  | pack a start width imm =>
    rcases execPack_running a start width imm h with ⟨hw, e⟩ | ⟨hw, hr, e⟩ | ⟨hw, hr, e⟩
    · exact ⟨_, e, .inl ⟨_, by rw [faultDue_pack, if_pos hw], rfl⟩⟩
    · exact ⟨_, e, .inl ⟨_, by rw [faultDue_pack, if_neg (not_not.mpr hw), if_pos hr], rfl⟩⟩
    · have hlen := (packLen_spec a.toNat start.toNat width.toNat hw.1 hw.2).1
      refine ⟨_, e, .inr ⟨by rw [faultDue_pack, if_neg (not_not.mpr hw), if_neg (not_le.mpr hr)], .bytes _ _ ?_⟩⟩
      rw [length_insertBits, State.length_bytesAt]
      omega
  | xsum a b =>
    rcases execXsum_running a b h with ⟨hr, e⟩ | ⟨hr, e⟩
    · exact ⟨_, e, .inl ⟨_, by rw [faultDue_xsum, if_pos hr], rfl⟩⟩
    · exact ⟨_, e, .inr ⟨by rw [faultDue_xsum, if_neg (not_lt.mpr hr)], .result _ rfl⟩⟩
  | cnxt v m => exact ⟨_, execCnxt_running v m h, .inr ⟨rfl, .result _ rfl⟩⟩
  | wrb a c =>
    rcases execWrb_running a c h with ⟨hr, e⟩ | ⟨hr, e⟩
    · exact ⟨_, e, .inl ⟨_, by rw [faultDue_wrb, if_pos hr], rfl⟩⟩
    · exact ⟨_, e, .inr ⟨by rw [faultDue_wrb, if_neg (not_le.mpr hr)], .bytes _ [c] hr⟩⟩
  | rdb a =>
    rcases execRdb_running a h with ⟨hr, e⟩ | ⟨hr, e⟩
    · exact ⟨_, e, .inl ⟨_, by rw [faultDue_rdb, if_pos hr], rfl⟩⟩
    · exact ⟨_, e, .inr ⟨by rw [faultDue_rdb, if_neg (not_le.mpr hr)], .result _ rfl⟩⟩
  | stres a =>
    rcases execStres_running a h with ⟨hr, e⟩ | ⟨hr, e⟩
    · exact ⟨_, e, .inl ⟨_, by rw [faultDue_stres, if_pos hr], rfl⟩⟩
    · exact ⟨_, e, .inr ⟨by rw [faultDue_stres, if_neg (not_le.mpr hr)], .bytes _ [s.res] hr⟩⟩

/-- What a command that answers `t` can have done: a halted block ignored it, or it raised the fault it was due, or it
completed (R100, R103). -/
theorem exec_cases {i : Instr} (e : exec i s = .next t) :
    (s.fault ≠ 0 ∧ t = s) ∨
    (s.fault = 0 ∧ ∃ cause, faultDue s i = some cause ∧ t = s.raise cause (encode i)) ∨
    (s.fault = 0 ∧ Completes i s t) := by
  by_cases h : s.fault = 0
  · obtain ⟨t', e', outcome⟩ := exec_outcome i h
    obtain rfl : t' = t := by simpa only [e', Host.Outcome.next.injEq] using e
    rcases outcome with raised | ⟨-, completed⟩
    · exact .inr (.inl ⟨h, raised⟩)
    · exact .inr (.inr ⟨h, completed⟩)
  · rw [exec_halted i h] at e
    exact .inl ⟨h, (Host.Outcome.next.inj e).symm⟩

/-! ### What a completed command leaves as it was -/

section

variable {i : Instr} (h : Completes i s t)
include h

theorem Completes.cfg : t.cfg = s.cfg := by
  cases h <;> simp

theorem Completes.fault : t.fault = s.fault := by
  cases h <;> simp

theorem Completes.inbox : t.inbox = s.inbox := by
  cases h <;> simp

theorem Completes.fcmd : t.fcmd = s.fcmd := by
  cases h <;> simp

/-- Only `SEQADV` writes `SEQ` (R14, R72). -/
theorem Completes.seq : t.seq = s.seq ∨ (i = .seqadv ∧ t.seq = s.seq + 1) := by
  cases h with
  | table | result | bytes => exact .inl (by simp)
  | counter hi => exact .inr ⟨hi, rfl⟩

/-- Only `BUILD` writes `TAB` and `TABV`, which it sets (R13, R17, R61). -/
theorem Completes.table_writer :
    (t.tab = s.tab ∧ t.tabv = s.tabv) ∨ (i = .build ∧ t.tab = j1850Table ∧ t.tabv = true) := by
  cases h with
  | table hi => exact .inr ⟨hi, rfl, rfl⟩
  | counter | result | bytes => exact .inl (by simp)

/-- Only the commands of R15 write `RES`. -/
theorem Completes.res (hi : writesRes i = false) : t.res = s.res := by
  cases h with
  | result v hw => simp [hi] at hw
  | table | counter | bytes => simp

/-- A completed command keeps `M` canonical (R8, R31). -/
theorem Completes.memory_wf (hm : Memory.wf s.mem) : Memory.wf t.mem := by
  cases h with
  | bytes a vs => exact State.wf_writeBytes vs a hm
  | table | counter | result => exact hm

/-- A completed command writes no byte outside `M` (R30, R31). -/
theorem Completes.memory_inside (hm : ∀ c ∈ s.mem, c.1 < s.cfg.msize) : ∀ c ∈ t.mem, c.1 < s.cfg.msize := by
  cases h with
  | bytes a vs hin =>
    intro c hc
    rcases State.mem_writeBytes vs hc with hc | ⟨-, hlt⟩
    · exact hm c hc
    · omega
  | table | counter | result => exact hm

end

/-! ### The equations of the step -/

theorem step_idle (h : s.inbox = []) : step s = .next s := by
  simp only [step, h]

theorem step_read {r : HostReg} {rest : List HostAction} (h : s.inbox = .read r :: rest) :
    step s = .next { s with inbox := rest } := by
  simp only [step, h]

theorem step_reset {rest : List HostAction} (h : s.inbox = .reset :: rest) :
    step s = .next (State.applyReset { s with inbox := rest }) := by
  simp only [step, h]

theorem step_issue {w : Word} {rest : List HostAction} (h : s.inbox = .issue w :: rest) :
    step s = execWord w { s with inbox := rest } := by
  simp only [step, h]

theorem step_legal {w : Word} {rest : List HostAction} {i : Instr} (h : s.inbox = .issue w :: rest)
    (hd : decode w = .legal i) : step s = exec i { s with inbox := rest } := by
  rw [step_issue h, execWord_legal hd]

/-- Settles O7, by the equation of the step for an issued word. -/
theorem stepRunsDecodedCommand : Obligations.StepRunsDecodedCommand :=
  fun _ _ _ _ hin hd => ⟨step_issue hin, step_legal hin hd⟩

/-- Settles O8: the table's word is the word of the command, which the decoder reads back. -/
theorem fetchedWordRuns : Obligations.FetchedWordRuns := by
  intro s i
  constructor
  · simp only [decodeTableWord, tableWord_toNat, decode_encode, Decoded.toOption, Nat.le_refl, if_true]
  · refine step_legal (s := s.withFetchWord 64 (encode i).toNat) (State.withFetchWord_inbox ..) ?_
    rw [tableWord_toNat, decode_encode]

/-- Settles O10, by the equations of the step for a read and for an idle block. -/
theorem hostReadsChangeNothing : Obligations.HostReadsChangeNothing :=
  fun _ _ => ⟨fun _ hin => step_read hin, step_idle, rfl, rfl, rfl, rfl, rfl⟩

/-- Settles O11, by the equation of the step for a reset. -/
theorem resetAction : Obligations.ResetAction :=
  fun _ _ hin => ⟨_, step_reset hin, rfl, rfl, rfl, rfl, rfl, rfl, rfl, rfl⟩

/-- Settles O12. -/
theorem powerOnRegisters : Obligations.PowerOnRegisters :=
  ⟨rfl, rfl, rfl, rfl, rfl, rfl⟩

/-! ### What a step can write -/

/-- A step resets, or completes the command it was issued, or writes nothing but `FAULT`, `FCMD` and the host's list. -/
theorem step_writes (e : step s = .next t) :
    (∃ rest, s.inbox = .reset :: rest ∧ t = State.applyReset { s with inbox := rest }) ∨
    (∃ i rest, s.inbox = .issue (encode i) :: rest ∧ s.fault = 0 ∧ Completes i { s with inbox := rest } t) ∨
    (∃ fault fcmd inbox, t = { s with fault := fault, fcmd := fcmd, inbox := inbox }) := by
  rcases step_cases e with ⟨-, rfl⟩ | ⟨r, rest, -, rfl⟩ | ⟨rest, hin, rfl⟩ | ⟨w, rest, -, -, rfl⟩ |
    ⟨w, rest, -, -, -, rfl⟩ | ⟨w, rest, i, hin, hf, hd, ei⟩
  · exact .inr (.inr ⟨_, _, _, rfl⟩)
  · exact .inr (.inr ⟨_, _, _, rfl⟩)
  · exact .inl ⟨rest, hin, rfl⟩
  · exact .inr (.inr ⟨_, _, _, rfl⟩)
  · exact .inr (.inr ⟨_, _, _, rfl⟩)
  · rcases exec_cases ei with ⟨-, rfl⟩ | ⟨-, cause, -, rfl⟩ | ⟨-, completed⟩
    · exact .inr (.inr ⟨_, _, _, rfl⟩)
    · exact .inr (.inr ⟨_, _, _, rfl⟩)
    · exact .inr (.inl ⟨i, rest, encode_of_decode hd ▸ hin, hf, completed⟩)

/-- Settles O22, by what a step can write. -/
theorem configurationConstant : Obligations.ConfigurationConstant := by
  intro s t e
  rcases step_writes e with ⟨rest, -, rfl⟩ | ⟨i, rest, -, -, completed⟩ | ⟨fault, fcmd, inbox, rfl⟩
  · rfl
  · exact completed.cfg
  · rfl

/-- Settles O23, by what a step can write: of the commands that complete only `SEQADV` writes `SEQ`. -/
theorem sequenceCounterWriters : Obligations.SequenceCounterWriters := by
  intro s t e hne
  rcases step_writes e with ⟨rest, hin, rfl⟩ | ⟨i, rest, hin, hf, completed⟩ | ⟨fault, fcmd, inbox, rfl⟩
  · exact .inr ⟨rest, hin, rfl⟩
  · rcases completed.seq with hsame | ⟨rfl, hseq⟩
    · exact absurd hsame hne
    · exact .inl ⟨rest, hin, hf, hseq⟩
  · exact absurd rfl hne

/-- Settles O24, by what a step can write: of the commands that complete only `BUILD` writes the table. -/
theorem tableWriters : Obligations.TableWriters := by
  intro s t e hne
  rcases step_writes e with ⟨rest, hin, rfl⟩ | ⟨i, rest, hin, hf, completed⟩ | ⟨fault, fcmd, inbox, rfl⟩
  · exact .inr ⟨rest, hin, rfl⟩
  · rcases completed.table_writer with hsame | ⟨rfl, -, htabv⟩
    · exact absurd hsame hne
    · exact .inl ⟨rest, hin, hf, htabv⟩
  · exact absurd ⟨rfl, rfl⟩ hne

/-- Settles O25: an ignored and a faulting command leave `RES`, and a completed one has raised no fault. -/
theorem resultRegisterWriters : Obligations.ResultRegisterWriters := by
  intro i s t e hi
  rcases exec_cases e with ⟨-, rfl⟩ | ⟨-, cause, -, rfl⟩ | ⟨hf, completed⟩
  · rfl
  · rfl
  · rcases hi with hi | hfault
    · exact completed.res hi
    · exact absurd (completed.fault.trans hf) hfault

/-! ### Invariants of the step -/

/-- A property that a register read, a reset, an illegal word and a command keep is kept by every step. -/
theorem step_keeps {P : State → Prop} (inbox : ∀ s rest, P s → P { s with inbox := rest })
    (reset : ∀ s, P s → P s.applyReset)
    (illegal : ∀ s w why, P s → decode w = .illegal why → P (s.raise .illegalCommand w))
    (command : ∀ s t i, P s → exec i s = .next t → P t) (h : P s) (e : step s = .next t) : P t := by
  rcases step_cases e with ⟨-, rfl⟩ | ⟨r, rest, -, rfl⟩ | ⟨rest, -, rfl⟩ | ⟨w, rest, -, -, rfl⟩ |
    ⟨w, rest, -, -, ⟨why, hd⟩, rfl⟩ | ⟨w, rest, i, -, -, -, ei⟩
  · exact h
  · exact inbox s rest h
  · exact reset _ (inbox s rest h)
  · exact inbox s rest h
  · exact illegal _ w why (inbox s rest h) hd
  · exact command _ t i (inbox s rest h) ei

/-! ### The legal states -/

/-- A state with nothing written since reset, no fault and no table is legal. -/
theorem State.Inv.of_reset (hm : s.mem = []) (hf : s.fault = 0) (hc : s.fcmd = 0) (hv : s.tabv = false) : s.Inv where
  memory_wf := hm ▸ Memory.wf_nil
  memory_inside := by simp [hm]
  fault_legal := by simp [hf]
  fcmd_zero _ := hc
  table_built := by simp [hv]

/-- A fault writes one of the codes 1 to 5, so `FCMD` is free to hold the word (R100, R101). -/
theorem State.Inv.raise (h : s.Inv) (cause : FaultCause) (w : Word) : (s.raise cause w).Inv where
  __ := h
  fault_legal := cause.code_le_five
  fcmd_zero h0 := absurd h0 cause.code_ne_zero

theorem State.Inv.completes {i : Instr} (h : s.Inv) (completed : Completes i s t) : t.Inv where
  memory_wf := completed.memory_wf h.memory_wf
  memory_inside := completed.cfg ▸ completed.memory_inside h.memory_inside
  fault_legal := completed.fault ▸ h.fault_legal
  fcmd_zero := completed.fault ▸ completed.fcmd ▸ h.fcmd_zero
  table_built hv := by
    rcases completed.table_writer with ⟨htab, htabv⟩ | ⟨-, htab, -⟩
    · exact htab ▸ h.table_built (htabv ▸ hv)
    · exact htab ▸ tableAt_j1850Table

theorem State.Inv.exec {i : Instr} (h : s.Inv) (e : exec i s = .next t) : t.Inv := by
  rcases exec_cases e with ⟨-, rfl⟩ | ⟨-, cause, -, rfl⟩ | ⟨-, completed⟩
  · exact h
  · exact h.raise cause _
  · exact h.completes completed

/-- Settles O18, by what each action of the host can do to a legal state. -/
theorem legalStatesKept : Obligations.LegalStatesKept := by
  intro s t
  refine step_keeps (P := State.Inv) ?inbox ?reset ?illegal ?command
  case inbox => exact fun s rest h => { __ := h }
  case reset => exact fun s _ => .of_reset rfl rfl rfl rfl
  case illegal => exact fun s w _ h _ => h.raise _ w
  case command => exact fun s t i h e => h.exec e

/-- Settles O19. -/
theorem powerOnLegal : Obligations.PowerOnLegal :=
  State.Inv.of_reset rfl rfl rfl rfl

/-! ### The fault record -/

/-- While `FAULT` is 0 the record says that there was no fault (R16). -/
theorem State.FaultRecorded.fcmd_eq_zero (h : s.FaultRecorded) (hf : s.fault = 0) : s.fcmd = 0 := by
  rcases h with ⟨-, hc⟩ | ⟨hcode, -⟩ | ⟨i, cause, -, -, hcode⟩
  · exact hc
  · exact absurd (hcode.symm.trans hf) (FaultCause.code_ne_zero _)
  · exact absurd (hcode.symm.trans hf) cause.code_ne_zero

/-- The fault a command raises is the one it is still due: fault entry changes neither the configuration nor `TABV`
(R101). -/
theorem State.FaultRecorded.of_due {i : Instr} {cause : FaultCause} (hdue : faultDue s i = some cause) :
    (s.raise cause (encode i)).FaultRecorded :=
  .inr (.inr ⟨i, cause, decode_encode i, hdue ▸ faultDue_congr rfl rfl i, rfl⟩)

theorem State.FaultRecorded.of_illegal {w : Word} {why : IllegalWord} (hd : decode w = .illegal why) :
    (s.raise .illegalCommand w).FaultRecorded :=
  .inr (.inl ⟨rfl, by rw [State.raise_fcmd, hd, Decoded.toOption]⟩)

theorem State.FaultRecorded.exec {i : Instr} (h : s.FaultRecorded) (e : exec i s = .next t) : t.FaultRecorded := by
  rcases exec_cases e with ⟨-, rfl⟩ | ⟨-, cause, hdue, rfl⟩ | ⟨hf, completed⟩
  · exact h
  · exact .of_due hdue
  · exact .inl ⟨completed.fault.trans hf, completed.fcmd.trans (h.fcmd_eq_zero hf)⟩

/-- Settles O20, by what each action of the host can do to a true fault record. -/
theorem faultRecordKept : Obligations.FaultRecordKept := by
  intro s t
  refine step_keeps (P := State.FaultRecorded) ?inbox ?reset ?illegal ?command
  case inbox => exact fun s rest h => h
  case reset => exact fun s _ => .inl ⟨rfl, rfl⟩
  case illegal => exact fun s w why _ hd => .of_illegal hd
  case command => exact fun s t i h e => h.exec e

/-- Settles O21. -/
theorem powerOnFaultRecord : Obligations.PowerOnFaultRecord :=
  .inl ⟨rfl, rfl⟩

/-! ### A run of the machine is the fold of its commands

The words the host will issue next are invisible to a command (R12, R25): each operation of the state commutes with
`issuing`. -/

section

variable (s : State) (is : List Instr)

@[simp] theorem State.memRead_issuing (a n : Nat) : (s.issuing is).memRead a n = s.memRead a n := rfl

theorem State.writeBytes_issuing (a : Nat) (vs : List Byte) :
    (s.issuing is).writeBytes a vs = (s.writeBytes a vs).issuing is := by
  induction vs generalizing s a with
  | nil => rfl
  | cons v vs ih => exact ih (s.writeByte a v) (a + 1)

end

section

variable {is : List Instr} {c : Prop} [Decidable c]

theorem State.ite_issuing {x y x' y' : State} (hx : x' = x.issuing is) (hy : y' = y.issuing is) :
    (if c then x' else y') = (if c then x else y).issuing is := by
  rw [hx, hy, ← apply_ite (State.issuing · is)]

theorem State.dite_issuing {x x' : c → State} {y y' : ¬ c → State} (hx : ∀ h, x' h = (x h).issuing is)
    (hy : ∀ h, y' h = (y h).issuing is) : dite c x' y' = (dite c x y).issuing is := by
  rw [funext hx, funext hy, ← apply_dite (State.issuing · is)]

end

theorem State.memWrite_issuing (s : State) (is : List Instr) (a : Nat) (vs : List Byte) (cause : FaultCause)
    (w : Word) : ((s.issuing is).memWrite a vs).getD ((s.issuing is).raise cause w) =
      ((s.memWrite a vs).getD (s.raise cause w)).issuing is := by
  rw [State.memWrite, State.memWrite, State.issuing_cfg, State.writeBytes_issuing]
  split <;> rfl

/-- The frame of a command commutes with `issuing` where its effect does. -/
theorem State.command_issuing {effect : State → State} {is : List Instr} (e : s.command effect = .next t)
    (he : effect (s.issuing is) = (effect s).issuing is) : (s.issuing is).command effect = .next (t.issuing is) := by
  rcases State.command_next e with ⟨hh, rfl⟩ | ⟨hh, rfl⟩
  · exact State.command_halted effect hh
  · exact he ▸ State.command_running (s := s.issuing is) effect hh

/-- What a command does, it does whatever the host will issue next (R12, R25). -/
theorem exec_issuing {i : Instr} (is : List Instr) (e : exec i s = .next t) :
    exec i (s.issuing is) = .next (t.issuing is) := by
  cases i <;> simp only [exec] at e ⊢
  case build => exact State.command_issuing e rfl
  case crc8 a b c =>
    refine State.command_issuing e (State.ite_issuing rfl ?_)
    simp only [State.memRead_issuing]
    cases s.memRead a.toNat b.toNat <;> rfl
  case xcrc a t =>
    exact State.command_issuing e (State.dite_issuing (fun _ => State.ite_issuing rfl rfl) fun _ => rfl)
  case seqadv => exact State.command_issuing e rfl
  case pack a start width imm =>
    refine State.command_issuing e (State.ite_issuing ?_ rfl)
    simp only [State.memRead_issuing]
    cases s.memRead (packLo a.toNat start.toNat) (packLen a.toNat start.toNat width.toNat) with
    | none => rfl
    | some buf => exact State.writeBytes_issuing s is _ _
  case xsum a b =>
    refine State.command_issuing e ?_
    simp only [State.memRead_issuing]
    cases s.memRead a.toNat b.toNat <;> rfl
  case cnxt v m => exact State.command_issuing e rfl
  case wrb a c => exact State.command_issuing e (State.memWrite_issuing s is a.toNat [c] _ _)
  case rdb a => exact State.command_issuing e (State.ite_issuing rfl rfl)
  case stres a => exact State.command_issuing e (State.memWrite_issuing s is a.toNat [s.res] _ _)

/-- One step of a host that issues a program runs its first command. -/
theorem step_issuing_cons {i : Instr} (is : List Instr) (e : exec i s = .next t) :
    step (s.issuing (i :: is)) = .next (t.issuing is) := by
  have hstep : step (s.issuing (i :: is)) = exec i (s.issuing is) := step_legal rfl (decode_encode i)
  rw [hstep, exec_issuing is e]

/-- A run of the machine ends in the fold of the commands, with no word left to issue. -/
theorem run_issuing (prog : List Instr) (s : State) :
    Host.Core.run core prog.length (s.issuing prog) = .next ((runCommands prog s).issuing []) := by
  induction prog generalizing s with
  | nil => rfl
  | cons i is ih =>
    obtain ⟨t, e⟩ := exec_answers_next i s
    have hstep : core.step (s.issuing (i :: is)) = .next (t.issuing is) := step_issuing_cons is e
    simp only [List.length_cons, Host.Core.run, hstep, runCommands, e]
    exact ih t

theorem State.issuing_nil (h : s.inbox = []) : s.issuing [] = s := by
  rw [State.issuing, List.map_nil, ← h]

/-- A command leaves the host's list as it was (R12). -/
theorem exec_inbox {i : Instr} (e : exec i s = .next t) : t.inbox = s.inbox := by
  rcases exec_cases e with ⟨-, rfl⟩ | ⟨-, cause, -, rfl⟩ | ⟨-, completed⟩
  · rfl
  · rfl
  · exact completed.inbox

theorem runCommands_inbox (prog : List Instr) (s : State) : (runCommands prog s).inbox = s.inbox := by
  induction prog generalizing s with
  | nil => rfl
  | cons i is ih =>
    obtain ⟨t, e⟩ := exec_answers_next i s
    simp only [runCommands, e, ih t, exec_inbox e]

/-- Settles O30, by induction on the program: each step of the run is one command of the fold. -/
theorem runIsFoldOfCommands : Obligations.RunIsFoldOfCommands := by
  intro prog s hin
  rw [run_issuing, State.issuing_nil ((runCommands_inbox prog s).trans hin)]

end Sys2Proof.Machine
end

section
/-! SUPPORT. Proofs of the statements of 20_memory.md: which bytes a command leaves alone (O26), that a byte written is the
byte read (O33), the order of the message bits of `CRC8` (O38), and the numbering of the buffer bits of `PACK` (O42). -/

namespace Sys2Proof.Machine

variable {s t : State}

/-! ### Which bytes a command writes (R36) -/

/-- What a command does to `M`: nothing, or it writes a list of bytes to exactly the addresses of R36. -/
inductive MemoryEffect (i : Instr) (s : State) : State → Prop where
  | kept {t : State} (hmem : t.mem = s.mem) (hresets : t.resets = s.resets) : MemoryEffect i s t
  | wrote (a : Nat) (vs : List Byte) (haddrs : writeAddrs i = addrRange a vs.length) :
      MemoryEffect i s (s.writeBytes a vs)

/-- The bytes a `PACK` of legal width writes back are those it touches, `lo..hi` (R36, R81). -/
theorem writeAddrs_pack {a start width : Byte} {imm : BitVec 32} (hw : 1 ≤ width.toNat ∧ width.toNat ≤ 32) :
    writeAddrs (.pack a start width imm) =
      addrRange (packLo a.toNat start.toNat) (packLen a.toNat start.toNat width.toNat) := by
  rw [writeAddrs, if_pos (legalWidth_eq_true.mpr hw)]

/-- A command that raises a fault keeps `M` (R101), and one that completes writes the addresses of R36. -/
theorem exec_memoryEffect_running (i : Instr) (h : s.fault = 0) : ∃ t, exec i s = .next t ∧ MemoryEffect i s t := by
  cases i with
  | build => exact ⟨_, execBuild_running h, .kept rfl rfl⟩
  | crc8 a b c =>
    rcases execCrc8_running a b c h with ⟨-, e⟩ | ⟨-, -, e⟩ | ⟨-, -, e⟩ <;> exact ⟨_, e, .kept rfl rfl⟩
  | xcrc a t =>
    rcases execXcrc_running a t h with ⟨-, e⟩ | ⟨_, ⟨-, e⟩ | ⟨-, e⟩⟩ <;> exact ⟨_, e, .kept rfl rfl⟩
  | seqadv => exact ⟨_, execSeqadv_running h, .kept rfl rfl⟩
  | pack a start width imm =>
    rcases execPack_running a start width imm h with ⟨-, e⟩ | ⟨-, -, e⟩ | ⟨hw, -, e⟩
    · exact ⟨_, e, .kept rfl rfl⟩
    · exact ⟨_, e, .kept rfl rfl⟩
    · exact ⟨_, e, .wrote _ _ (by rw [writeAddrs_pack hw, length_insertBits, State.length_bytesAt])⟩
  | xsum a b => rcases execXsum_running a b h with ⟨-, e⟩ | ⟨-, e⟩ <;> exact ⟨_, e, .kept rfl rfl⟩
  | cnxt v m => exact ⟨_, execCnxt_running v m h, .kept rfl rfl⟩
  | wrb a c =>
    rcases execWrb_running a c h with ⟨-, e⟩ | ⟨-, e⟩
    · exact ⟨_, e, .kept rfl rfl⟩
    · exact ⟨_, e, .wrote a.toNat [c] rfl⟩
  | rdb a => rcases execRdb_running a h with ⟨-, e⟩ | ⟨-, e⟩ <;> exact ⟨_, e, .kept rfl rfl⟩
  | stres a =>
    rcases execStres_running a h with ⟨-, e⟩ | ⟨-, e⟩
    · exact ⟨_, e, .kept rfl rfl⟩
    · exact ⟨_, e, .wrote a.toNat [s.res] rfl⟩

theorem exec_memoryEffect {i : Instr} (e : exec i s = .next t) : MemoryEffect i s t := by
  by_cases h : s.fault = 0
  · obtain ⟨t', e', effect⟩ := exec_memoryEffect_running i h
    obtain rfl : t' = t := Host.Outcome.next.inj (e'.symm.trans e)
    exact effect
  · obtain rfl : s = t := Host.Outcome.next.inj ((exec_halted i h).symm.trans e)
    exact .kept rfl rfl

/-- A write leaves every byte outside its addresses (R8, R36). -/
theorem MemoryEffect.byteAt {i : Instr} (h : MemoryEffect i s t) {x : Nat} (hx : x ∉ writeAddrs i) :
    t.byteAt x = s.byteAt x := by
  cases h with
  | kept hmem hresets => exact State.byteAt_congr hmem hresets x
  | wrote a vs haddrs =>
    rw [haddrs, mem_addrRange] at hx
    exact State.byteAt_writeBytes_outside s a x vs (by omega)

/-- Settles O26, by what a command does to `M`. -/
theorem memoryFrame : Obligations.MemoryFrame :=
  fun _ _ _ _ e hx => (exec_memoryEffect e).byteAt hx

/-! ### A read after the latest write (R37, R40) -/

theorem runCommands_cons {i : Instr} (e : exec i s = .next t) (is : List Instr) :
    runCommands (i :: is) s = runCommands is t := by
  rw [runCommands, e]

/-- A run that ends with no fault started with none (R103). -/
theorem CleanRun.fault {is : List Instr} (h : CleanRun is s) : s.fault = 0 := by
  by_contra hf
  rw [CleanRun, runCommands_halted is hf] at h
  exact hf h

/-- A byte that no command of a run writes is kept by the run (R36, R37). -/
theorem runCommands_byteAt (is : List Instr) {x : Nat} (hx : ∀ i ∈ is, x ∉ writeAddrs i) :
    (runCommands is s).byteAt x = s.byteAt x := by
  induction is generalizing s with
  | nil => rfl
  | cons i is ih =>
    obtain ⟨hi, his⟩ := List.forall_mem_cons.mp hx
    obtain ⟨t, e⟩ := exec_answers_next i s
    rw [runCommands_cons e, ih his, (exec_memoryEffect e).byteAt hi]

/-- The first command of a clean run raises no fault: the halt would last to the end of the run (R103). -/
theorem CleanRun.not_raised {i : Instr} {is : List Instr} {cause : FaultCause} {w : Word} (h : CleanRun (i :: is) s) :
    exec i s ≠ .next (s.raise cause w) := by
  intro e
  have hrest : CleanRun is (s.raise cause w) := by rwa [CleanRun, runCommands_cons e] at h
  exact cause.code_ne_zero hrest.fault

/-- A `WRB` that starts a clean run has written its byte (R90). -/
theorem CleanRun.exec_wrb {a c : Byte} {is : List Instr} (h : CleanRun (.wrb a c :: is) s) :
    exec (.wrb a c) s = .next (s.writeByte a.toNat c) := by
  rcases execWrb_running a c h.fault with ⟨-, e⟩ | ⟨-, e⟩
  · exact absurd e h.not_raised
  · exact e

/-- An `RDB` that starts a clean run has read its byte into `RES` (R91). -/
theorem CleanRun.exec_rdb {a : Byte} {is : List Instr} (h : CleanRun (.rdb a :: is) s) :
    exec (.rdb a) s = .next (s.setRes (s.byteAt a.toNat)) := by
  rcases execRdb_running a h.fault with ⟨-, e⟩ | ⟨-, e⟩
  · exact absurd e h.not_raised
  · exact e

/-- Settles O33: the run cut at the `WRB` and at the `RDB`, and the byte kept by the commands between. -/
theorem readReturnsLatestWrite : Obligations.ReadReturnsLatestWrite := by
  intro a c between s hbetween hclean
  have hrun : runCommands (.wrb a c :: between ++ [.rdb a]) s =
      runCommands [.rdb a] (runCommands between (s.writeByte a.toNat c)) :=
    (runCommands_cons hclean.exec_wrb _).trans (runCommands_append between [.rdb a])
  have hread : CleanRun [.rdb a] (runCommands between (s.writeByte a.toNat c)) := by rwa [CleanRun, hrun] at hclean
  calc (runCommands (.wrb a c :: between ++ [.rdb a]) s).res
      = (runCommands between (s.writeByte a.toNat c)).byteAt a.toNat := by
        rw [hrun, runCommands_cons hread.exec_rdb, runCommands, State.setRes_res]
    _ = (s.writeByte a.toNat c).byteAt a.toNat := runCommands_byteAt between hbetween
    _ = c := by rw [State.byteAt_writeByte, if_pos rfl]

/-! ### The bit-serial form of the table look-up (R32, R34, R63) -/

/-- One division step of a register into which the byte `b` was XORed at once is one serial step that takes in bit 7 of
`b`, with the other bits of `b` still to come. -/
theorem divStep_xor (poly c b : Byte) : divStep poly (c ^^^ b) = serialStep poly c (b.getLsbD 7) ^^^ b <<< 1 := by
  rw [divStep, serialStep, BitVec.getLsbD_xor, BitVec.shiftLeft_xor_distrib, Bool.bne_eq_xor]
  cases c.getLsbD 7 ^^ b.getLsbD 7
  · rfl
  · simp only [if_true]
    ac_rfl

/-- `k` division steps take in the `k` leading bits of the byte, the most significant first (R34). -/
theorem divSteps_xor (poly : Byte) (k : Nat) (hk : k ≤ 8) (c b : Byte) :
    divSteps poly k (c ^^^ b) =
      ((List.range k).map fun j => b.getLsbD (7 - j)).foldl (serialStep poly) c ^^^ b <<< k := by
  induction k generalizing c b with
  | zero => simp [divSteps]
  | succ k ih =>
    have hbits : ((List.range k).map fun j => (b <<< 1).getLsbD (7 - j)) =
        (List.range k).map fun j => b.getLsbD (7 - (j + 1)) := by
      refine List.map_congr_left fun j hj => ?_
      have hlt : j < k := List.mem_range.mp hj
      simp only [BitVec.getLsbD_shiftLeft, show 7 - j < 8 by omega, show ¬ 7 - j < 1 by omega,
        show 7 - j - 1 = 7 - (j + 1) by omega, decide_true, decide_false, Bool.not_false, Bool.true_and]
    rw [divSteps, divStep_xor, ih (by omega), hbits, List.range_succ_eq_map, List.map_cons, List.foldl_cons,
      List.map_map, ← BitVec.shiftLeft_add, Nat.add_comm 1 k]
    rfl

/-- A table entry is eight serial steps (R60, R63). -/
theorem j1850Entry_xor (c b : Byte) : j1850Entry (c ^^^ b) = (bitsMsbFirst b).foldl (serialStep 0x1D#8) c := by
  have h := divSteps_xor 0x1D#8 8 (le_refl 8) c b
  rwa [BitVec.shiftLeft_eq_zero (le_refl 8), BitVec.xor_zero] at h

/-- Over a built table the fold of `crc8_j1850` is the bit-serial register, byte by byte in ascending order (R32, R63). -/
theorem crc8Fold_eq_serial {tab : ByteTable} (htab : ∀ i : Byte, tableAt tab i = j1850Entry i) (bytes : List Byte)
    (c : Byte) : crc8Fold tab c bytes = (bytes.flatMap bitsMsbFirst).foldl (serialStep 0x1D#8) c := by
  induction bytes generalizing c with
  | nil => rfl
  | cons b bytes ih =>
    calc crc8Fold tab c (b :: bytes)
        = crc8Fold tab (tableAt tab (c ^^^ b)) bytes := rfl
      _ = crc8Fold tab ((bitsMsbFirst b).foldl (serialStep 0x1D#8) c) bytes := by rw [htab, j1850Entry_xor]
      _ = ((b :: bytes).flatMap bitsMsbFirst).foldl (serialStep 0x1D#8) c := by
        rw [ih, List.flatMap_cons, List.foldl_append]

theorem crc8J1850_eq_serial {tab : ByteTable} (htab : ∀ i : Byte, tableAt tab i = j1850Entry i) (bytes : List Byte)
    (fx : Byte) : crc8J1850 tab bytes fx = crc8Serial bytes fx := by
  rw [crc8J1850, crc8Serial, crc8Fold_eq_serial htab]
  rfl

/-- A `CRC8` that meets none of its faults writes `RES` and nothing else (R64). -/
theorem exec_crc8_completes {a b : Byte} (c : Byte) (hf : s.fault = 0) (hv : s.tabv = true)
    (hr : a.toNat + b.toNat ≤ s.cfg.msize) :
    exec (.crc8 a b c) s = .next (s.setRes (crc8J1850 s.tab (s.bytesAt a.toNat b.toNat) c)) := by
  rcases execCrc8_running a b c hf with ⟨hno, -⟩ | ⟨-, hout, -⟩ | ⟨-, -, e⟩
  · simp [hv] at hno
  · omega
  · exact e

/-- Settles O38: a legal state with a valid table holds `j1850_entry`, and each look-up is eight serial steps. -/
theorem crc8IsSerialCrc : Obligations.Crc8IsSerialCrc := by
  intro a b c s hinv hf hv hr
  rw [exec_crc8_completes c hf hv hr, crc8J1850_eq_serial (hinv.table_built hv)]
  rfl

/-! ### The bits a `PACK` writes (R33, R80) -/

/-- Buffer bit `p` is set, no other bit: buffer bit `8 * j + k` is bit `k` of byte `j` (R33). -/
theorem getLsbD_setBufferBit (buf : List Byte) (p : Nat) (v : Bool) {j k : Nat} (hj : j < buf.length) (hk : k < 8) :
    ((setBufferBit buf p v)[j]'(by simpa using hj)).getLsbD k = if 8 * j + k = p then v else buf[j].getLsbD k := by
  simp only [setBufferBit, List.getElem_modify]
  by_cases hbyte : p / 8 = j
  · rw [if_pos hbyte, getLsbD_setBit _ _ (Nat.mod_lt p (by omega)) _ _ hk]
    exact if_congr (by omega) rfl rfl
  · rw [if_neg hbyte, if_neg (by omega)]

/-- `insert_bits` sets buffer bits `start, ..., start+width-1` to the low bits of the value, no other bit (R80). -/
theorem getLsbD_insertBits (buf : List Byte) (start width : Nat) (v : BitVec 32) {j k : Nat} (hj : j < buf.length)
    (hk : k < 8) :
    ((insertBits buf start width v)[j]'(by simpa using hj)).getLsbD k =
      if start ≤ 8 * j + k ∧ 8 * j + k < start + width then v.getLsbD (8 * j + k - start) else buf[j].getLsbD k := by
  induction width with
  | zero => rw [if_neg (by omega)]; rfl
  | succ i ih =>
    simp only [insertBits]
    rw [getLsbD_setBufferBit _ _ _ (by simpa using hj) hk, ih]
    by_cases hlast : 8 * j + k = start + i
    · rw [if_pos hlast, if_pos (by omega), hlast, Nat.add_sub_cancel_left]
    · rw [if_neg hlast]
      exact if_congr (by omega) rfl rfl

/-- A `PACK` that meets none of its faults writes back the bytes it has read with the field inserted (R81). -/
theorem exec_pack_completes {a start width : Byte} (imm : BitVec 32) (hf : s.fault = 0)
    (hw : 1 ≤ width.toNat ∧ width.toNat ≤ 32) (hr : packHi a.toNat start.toNat width.toNat < s.cfg.msize) :
    exec (.pack a start width imm) s = .next (s.writeBytes (packLo a.toNat start.toNat)
      (insertBits (s.bytesAt (packLo a.toNat start.toNat) (packLen a.toNat start.toNat width.toNat))
        (start.toNat % 8) width.toNat imm)) := by
  rcases execPack_running a start width imm hf with ⟨hno, -⟩ | ⟨-, hout, -⟩ | ⟨-, -, e⟩
  · exact absurd hw hno
  · omega
  · exact e

/-- The bits of `M` after a field is written back: buffer bit `p` of base `a` is bit `8 * a + p` of `M`, counted through the
whole memory, although `PACK` counts from the first byte it touches (R33, R81). -/
theorem getLsbD_byteAt_writeField (s : State) (a start width : Nat) (imm : BitVec 32)
    (hw : 1 ≤ width ∧ width ≤ 32) (x : Nat) {k : Nat} (hk : k < 8) :
    ((s.writeBytes (packLo a start)
      (insertBits (s.bytesAt (packLo a start) (packLen a start width)) (start % 8) width imm)).byteAt x).getLsbD k =
      if 8 * a + start ≤ 8 * x + k ∧ 8 * x + k < 8 * a + start + width
      then imm.getLsbD (8 * x + k - (8 * a + start)) else (s.byteAt x).getLsbD k := by
  have hend := (packLen_spec a start width hw.1 hw.2).1
  have hlo : packLo a start = a + start / 8 := rfl
  have hhi : packHi a start width = a + (start + width - 1) / 8 := rfl
  by_cases hx : packLo a start ≤ x ∧ x < packLo a start + packLen a start width
  · obtain ⟨j, rfl⟩ : ∃ j, x = packLo a start + j := ⟨x - packLo a start, by omega⟩
    have hj : j < packLen a start width := by omega
    rw [State.byteAt_writeBytes_inside _ _ _ _ (by simpa using hj), getLsbD_insertBits _ _ _ _ (by simpa using hj) hk,
      State.getElem_bytesAt, show 8 * j + k - start % 8 = 8 * (packLo a start + j) + k - (8 * a + start) by omega]
    exact if_congr (by omega) rfl rfl
  · rw [State.byteAt_writeBytes_outside _ _ _ _ (by simp only [length_insertBits, State.length_bytesAt]; omega),
      if_neg (by omega)]

/-- Settles O42, by the bits of the field written back. -/
theorem packWritesField : Obligations.PackWritesField := by
  intro a start width imm s hf h1 h32 hr
  exact ⟨_, exec_pack_completes imm hf ⟨h1, h32⟩ hr,
    fun x k hk => getLsbD_byteAt_writeField s a.toNat start.toNat width.toNat imm ⟨h1, h32⟩ x hk,
    State.writeBytes_frame _ _ _⟩

end Sys2Proof.Machine
end

section
/-! SUPPORT. Proofs of the statements of 30_encoding.md: the decoder, the encoder and the opcode map (O1 to O5), the
assembler's fields (O6), the illegal word (O9), the pseudo-commands `WRBS` and `PACKBE16` (O34, O35), and the bits of
`IMM` that `PACK` ignores (O43). -/

namespace Sys2Proof

/-! ### Words and commands (R47, R50, R51) -/

/-- Settles O2, by the fields of a joined word. -/
theorem decodeEncodeRoundTrip : Obligations.DecodeEncodeRoundTrip :=
  decode_encode

/-- The decoder answers the command whose word it is given, and no other (R51). -/
theorem decode_eq_legal_iff {w : Word} {i : Instr} : decode w = .legal i ↔ encode i = w :=
  ⟨encode_of_decode, fun h => h ▸ decode_encode i⟩

theorem encode_injective : Function.Injective encode := fun _ j h =>
  Decoded.legal.inj ((decode_eq_legal_iff.mpr h).symm.trans (decode_encode j))

/-- Settles O3, by what the decoder answers: the command whose word it is, or that there is none. -/
theorem decodingTotalEncodingInjective : Obligations.DecodingTotalEncodingInjective := by
  refine ⟨fun w => ?_, encode_injective⟩
  cases hd : decode w with
  | legal i =>
    have hw : encode i = w := encode_of_decode hd
    exact .inl ⟨⟨i, rfl, hw, fun j hj => encode_injective (hj.trans hw.symm)⟩, fun ⟨_, h⟩ => nomatch h⟩
  | illegal why =>
    exact .inr ⟨⟨why, rfl⟩, fun i hi => nomatch hd.symm.trans (decode_eq_legal_iff.mpr hi)⟩

theorem requireZero_eq_illegal {m : String} {zero : Bool} {i : Instr} :
    (∃ why, requireZero m zero i = .illegal why) ↔ zero = false := by
  cases zero <;> simp [requireZero]

/-- The opcodes R50 names as unassigned, and the ten of R49. -/
theorem opcode_cases (op : Byte) :
    op = 0#8 ∨ 0x0B ≤ op.toNat ∨ op ∈ [1#8, 2#8, 3#8, 4#8, 5#8, 6#8, 7#8, 8#8, 9#8, 10#8] := by
  simp only [List.mem_cons, List.not_mem_nil, ← BitVec.toNat_inj, BitVec.toNat_ofNat]
  omega

/-- Settles O5, by the opcode: each assigned one has its own must-be-zero fields, and `PACK` has none. -/
theorem illegalWordsAre : Obligations.IllegalWordsAre := by
  intro w
  unfold decode
  split
  case h_11 =>
    refine iff_of_true ⟨_, rfl⟩ ?_
    rcases opcode_cases (opField w) with hop | hop | hop
    · exact .inl hop
    · exact .inr (.inl hop)
    · simp_all
  all_goals
    next hop => simp [hop, requireZero_eq_illegal, imp_iff_not_or, or_assoc]

/-! ### The opcode map (R49) -/

/-- A row whose mask is joined from field masks fixes the opcode, and the masked bits of the other fields are zero. -/
theorem OpcodeRow.spells_joinFields {r : OpcodeRow} (op ma mb mc : Byte) (mi : BitVec 32)
    (hmask : r.maskWord = joinFields (BitVec.allOnes 8) ma mb mc mi) (hmatch : r.matchWord = joinFields op 0 0 0 0)
    {o a b c : Byte} {imm : BitVec 32} :
    r.spells (joinFields o a b c imm) = true ↔
      o = op ∧ a &&& ma = 0 ∧ b &&& mb = 0 ∧ c &&& mc = 0 ∧ imm &&& mi = 0 := by
  rw [OpcodeRow.spells, beq_iff_eq, hmask, hmatch, joinFields_and, joinFields_inj, BitVec.and_allOnes]

/-- The word of a command spells the row of that command. -/
theorem row_spells_encode (i : Instr) : i.row.spells (encode i) = true := by
  have hmatch : Laws.EncodeMatchesRow.Statement i := by
    cases i with
    | build => exact Laws.EncodeMatchesRow.build
    | crc8 a b c => exact Laws.EncodeMatchesRow.crc8 a b c
    | xcrc a t => exact Laws.EncodeMatchesRow.xcrc a t
    | seqadv => exact Laws.EncodeMatchesRow.seqadv
    | pack a start width imm => exact Laws.EncodeMatchesRow.pack a start width imm
    | xsum a b => exact Laws.EncodeMatchesRow.xsum a b
    | cnxt v m => exact Laws.EncodeMatchesRow.cnxt v m
    | wrb a c => exact Laws.EncodeMatchesRow.wrb a c
    | rdb a => exact Laws.EncodeMatchesRow.rdb a
    | stres a => exact Laws.EncodeMatchesRow.stres a
  exact beq_iff_eq.mpr hmatch

theorem mem_opcodeMap {r : OpcodeRow} : r ∈ opcodeMap ↔ ∃ i : Instr, i.row = r := by
  constructor
  · intro h
    have hmap : opcodeMap = [Instr.build, .crc8 0 0 0, .xcrc 0 0, .seqadv, .pack 0 0 0 0, .xsum 0 0, .cnxt 0 0,
      .wrb 0 0, .rdb 0, .stres 0].map Instr.row := rfl
    obtain ⟨i, -, hi⟩ := List.mem_map.mp (hmap ▸ h)
    exact ⟨i, hi⟩
  · rintro ⟨i, rfl⟩
    cases i <;> simp only [opcodeMap, Instr.row, List.mem_cons, true_or, or_true]

open BitVec (allOnes) in
/-- A word that spells a row decodes to a command of that row: the mask covers the opcode and the must-be-zero
fields (R47, R49). -/
theorem decode_of_row_spells {i : Instr} {w : Word} (h : i.row.spells w = true) :
    ∃ j, decode w = .legal j ∧ j.row = i.row := by
  rw [← joinFields_fields w] at h ⊢
  generalize opField w = o, aField w = a, bField w = b, cField w = c, immField w = imm at h ⊢
  cases i with
  | build =>
    rw [OpcodeRow.spells_joinFields 1 (allOnes 8) (allOnes 8) (allOnes 8) (allOnes 32) rfl rfl] at h
    simp only [BitVec.and_allOnes] at h
    obtain ⟨rfl, rfl, rfl, rfl, rfl⟩ := h
    exact ⟨.build, decode_encode .build, rfl⟩
  | crc8 _ _ _ =>
    rw [OpcodeRow.spells_joinFields 2 0 0 0 (allOnes 32) rfl rfl] at h
    simp only [BitVec.and_allOnes] at h
    obtain ⟨rfl, -, -, -, rfl⟩ := h
    exact ⟨.crc8 a b c, decode_encode (.crc8 a b c), rfl⟩
  | xcrc _ _ =>
    rw [OpcodeRow.spells_joinFields 3 0 0 (allOnes 8) (allOnes 32) rfl rfl] at h
    simp only [BitVec.and_allOnes] at h
    obtain ⟨rfl, -, -, rfl, rfl⟩ := h
    exact ⟨.xcrc a b, decode_encode (.xcrc a b), rfl⟩
  | seqadv =>
    rw [OpcodeRow.spells_joinFields 4 (allOnes 8) (allOnes 8) (allOnes 8) (allOnes 32) rfl rfl] at h
    simp only [BitVec.and_allOnes] at h
    obtain ⟨rfl, rfl, rfl, rfl, rfl⟩ := h
    exact ⟨.seqadv, decode_encode .seqadv, rfl⟩
  | pack _ _ _ _ =>
    rw [OpcodeRow.spells_joinFields 5 0 0 0 0 rfl rfl] at h
    obtain ⟨rfl, -⟩ := h
    exact ⟨.pack a b c imm, decode_encode (.pack a b c imm), rfl⟩
  | xsum _ _ =>
    rw [OpcodeRow.spells_joinFields 6 0 0 (allOnes 8) (allOnes 32) rfl rfl] at h
    simp only [BitVec.and_allOnes] at h
    obtain ⟨rfl, -, -, rfl, rfl⟩ := h
    exact ⟨.xsum a b, decode_encode (.xsum a b), rfl⟩
  | cnxt _ _ =>
    rw [OpcodeRow.spells_joinFields 7 0 0 (allOnes 8) (allOnes 32) rfl rfl] at h
    simp only [BitVec.and_allOnes] at h
    obtain ⟨rfl, -, -, rfl, rfl⟩ := h
    exact ⟨.cnxt a b, decode_encode (.cnxt a b), rfl⟩
  | wrb _ _ =>
    rw [OpcodeRow.spells_joinFields 8 0 (allOnes 8) 0 (allOnes 32) rfl rfl] at h
    simp only [BitVec.and_allOnes] at h
    obtain ⟨rfl, -, rfl, -, rfl⟩ := h
    exact ⟨.wrb a c, decode_encode (.wrb a c), rfl⟩
  | rdb _ =>
    rw [OpcodeRow.spells_joinFields 9 0 (allOnes 8) (allOnes 8) (allOnes 32) rfl rfl] at h
    simp only [BitVec.and_allOnes] at h
    obtain ⟨rfl, -, rfl, rfl, rfl⟩ := h
    exact ⟨.rdb a, decode_encode (.rdb a), rfl⟩
  | stres _ =>
    rw [OpcodeRow.spells_joinFields 10 0 (allOnes 8) (allOnes 8) (allOnes 32) rfl rfl] at h
    simp only [BitVec.and_allOnes] at h
    obtain ⟨rfl, -, rfl, rfl, rfl⟩ := h
    exact ⟨.stres a, decode_encode (.stres a), rfl⟩

/-- Settles O4: a word that spells a row decodes to a command of that row, so a word spells no second row. -/
theorem opcodeMapDecides : Obligations.OpcodeMapDecides := by
  intro w
  constructor
  · constructor
    · rintro ⟨i, hd⟩
      exact ⟨i.row, mem_opcodeMap.mpr ⟨i, rfl⟩, encode_of_decode hd ▸ row_spells_encode i⟩
    · rintro ⟨r, hr, hspells⟩
      obtain ⟨i, rfl⟩ := mem_opcodeMap.mp hr
      obtain ⟨j, hd, -⟩ := decode_of_row_spells hspells
      exact ⟨j, hd⟩
  · intro i hd r hr
    constructor
    · intro hspells
      obtain ⟨k, rfl⟩ := mem_opcodeMap.mp hr
      obtain ⟨j, hj, hrow⟩ := decode_of_row_spells hspells
      obtain rfl : j = i := Decoded.legal.inj (hj.symm.trans hd)
      exact hrow.symm
    · rintro rfl
      exact encode_of_decode hd ▸ row_spells_encode i

/-- Settles O1: the decoder run on each word. -/
theorem sampleWordsDecode : Obligations.SampleWordsDecode := by
  unfold Obligations.SampleWordsDecode
  decide

end Sys2Proof

namespace Sys2Proof.Machine

variable {s : State}

/-- Settles O9, by the equation of an illegal word: the raise writes `FAULT` and `FCMD` (R101). -/
theorem illegalWordRaises : Obligations.IllegalWordRaises :=
  fun _ _ _ hd hf => execWord_illegal hd hf

/-! ### The assembler's fields (R52) -/

theorem byteOperand_bind {α : Type} (n : Nat) (k : Byte → Option α) :
    (byteOperand n).bind k = if n ≤ 255 then k (BitVec.ofNat 8 n) else none := by
  rw [byteOperand, if_congr Nat.lt_succ_iff rfl rfl]
  split <;> rfl

theorem immOperand_bind {α : Type} (n : Nat) (k : BitVec 32 → Option α) :
    (immOperand n).bind k = if n ≤ 2 ^ 32 - 1 then k (BitVec.ofNat 32 n) else none := by
  rw [immOperand, if_congr (Nat.lt_iff_le_pred (by decide)) rfl rfl]
  split <;> rfl

theorem modulusOperand_bind {α : Type} (m : Nat) (k : Byte → Option α) :
    (modulusOperand m).bind k = if 1 ≤ m ∧ m ≤ 256 then k (BitVec.ofNat 8 (m % 256)) else none := by
  rw [modulusOperand]
  split <;> rfl

/-- Settles O6: each line reads its operands one after another, and each is refused where it does not fit its field. -/
theorem assemblerFields : Obligations.AssemblerFields := by
  unfold Obligations.AssemblerFields
  simp only [AsmLine.assemble, Option.bind_eq_bind, byteOperand_bind, immOperand_bind, modulusOperand_bind, ite_and,
    implies_true, and_self]

/-! ### `WRBS` seeds a buffer (R53, R90) -/

theorem byteOperand_eq_some {n : Nat} {v : Byte} : byteOperand n = some v ↔ n < 256 ∧ v = BitVec.ofNat 8 n := by
  simp [byteOperand, eq_comm]

/-- The pseudo-command's first command writes the first byte, and the others seed the rest of the buffer. -/
theorem seedCommands_cons {addr b : Nat} {bs : List Nat} {cmds : List Instr}
    (h : seedCommands addr (b :: bs) = some cmds) :
    addr < 256 ∧ ∃ rest, seedCommands (addr + 1) bs = some rest ∧
      cmds = .wrb (BitVec.ofNat 8 addr) (BitVec.ofNat 8 b) :: rest := by
  simp only [seedCommands, Option.bind_eq_bind, Option.bind_eq_some_iff, byteOperand_eq_some, Option.some.injEq] at h
  obtain ⟨a, ⟨ha, rfl⟩, v, ⟨-, rfl⟩, rest, hrest, rfl⟩ := h
  exact ⟨ha, rest, hrest, rfl⟩

/-- A `WRB` of an address in `M` writes its byte (R90). -/
theorem exec_wrb_completes {a : Byte} (c : Byte) (hf : s.fault = 0) (hr : a.toNat < s.cfg.msize) :
    exec (.wrb a c) s = .next (s.writeByte a.toNat c) := by
  rcases execWrb_running a c hf with ⟨hout, -⟩ | ⟨-, e⟩
  · omega
  · exact e

theorem runCommands_seed {addr : Nat} {bytes : List Nat} {cmds : List Instr} (h : seedCommands addr bytes = some cmds)
    (hf : s.fault = 0) (hr : addr + bytes.length ≤ s.cfg.msize) :
    runCommands cmds s = s.writeBytes addr (bytes.map (BitVec.ofNat 8)) := by
  induction bytes generalizing s addr cmds with
  | nil =>
    obtain rfl : [] = cmds := Option.some.inj h
    rfl
  | cons b bs ih =>
    obtain ⟨ha, rest, hrest, rfl⟩ := seedCommands_cons h
    rw [List.length_cons] at hr
    have haddr : (BitVec.ofNat 8 addr).toNat = addr := Nat.mod_eq_of_lt ha
    have hfirst := exec_wrb_completes (s := s) (a := BitVec.ofNat 8 addr) (BitVec.ofNat 8 b) hf (by omega)
    rw [haddr] at hfirst
    rw [runCommands_cons hfirst, List.map_cons, State.writeBytes]
    exact ih hrest hf (by rw [State.writeByte_cfg]; omega)

/-- The bytes of the range just written are the bytes written (R31). -/
theorem State.bytesAt_writeBytes (s : State) (a : Nat) (vs : List Byte) :
    (s.writeBytes a vs).bytesAt a vs.length = vs := by
  refine List.ext_getElem (State.length_bytesAt ..) fun i _ hi => ?_
  rw [State.getElem_bytesAt, State.byteAt_writeBytes_inside s a i vs hi]

/-- Settles O34: the commands of `WRBS` write the bytes as one list. -/
theorem seedingWritesBuffer : Obligations.SeedingWritesBuffer := by
  intro addr bytes cmds s hasm hf hr
  have hseed : seedCommands addr bytes = some cmds := by
    rw [AsmLine.assemble] at hasm
    split at hasm
    · exact nomatch hasm
    · exact hasm
  have hlen : (bytes.map (BitVec.ofNat 8)).length = bytes.length := List.length_map _
  rw [runCommands_seed hseed hf hr]
  refine ⟨?_, fun x hx => ?_, State.writeBytes_frame _ _ _⟩
  · rw [← hlen, State.bytesAt_writeBytes]
  · exact State.byteAt_writeBytes_outside s addr x _ (by rwa [hlen])

/-! ### `PACKBE16` (R53, R82) -/

/-- Eight bits inserted at the start of one byte replace it. -/
theorem insertBits_byte (b : Byte) (imm : BitVec 32) : insertBits [b] 0 8 imm = [imm.setWidth 8] := by
  refine List.ext_getElem (length_insertBits ..) fun j hj hj' => BitVec.eq_of_getLsbD_eq fun k hk => ?_
  obtain rfl : j = 0 := by simpa using hj'
  rw [getLsbD_insertBits _ _ _ _ Nat.one_pos hk, if_pos (by omega)]
  simp [hk]

/-- A `PACK` of width 8 at a byte boundary stores one byte (R81). -/
theorem exec_pack_byte {a off : Nat} (n : Nat) (ha : a < 256) (hoff : 8 * off < 256) (hf : s.fault = 0)
    (hr : a + off < s.cfg.msize) :
    exec (.pack (BitVec.ofNat 8 a) (BitVec.ofNat 8 (8 * off)) 8 (BitVec.ofNat 32 n)) s =
      .next (s.writeByte (a + off) (BitVec.ofNat 8 n)) := by
  have hbase : (BitVec.ofNat 8 a).toNat = a := Nat.mod_eq_of_lt ha
  have hstart : (BitVec.ofNat 8 (8 * off)).toNat = 8 * off := Nat.mod_eq_of_lt hoff
  have hwidth : (8 : Byte).toNat = 8 := rfl
  have hlo : packLo a (8 * off) = a + off := by rw [packLo]; omega
  have hhi : packHi a (8 * off) 8 = a + off := by rw [packHi]; omega
  have hlen : packLen a (8 * off) 8 = 1 := by rw [packLen, hlo, hhi]; omega
  have hbuf : s.bytesAt (a + off) 1 = [s.byteAt (a + off)] := rfl
  have hexec := exec_pack_completes (s := s) (a := BitVec.ofNat 8 a) (start := BitVec.ofNat 8 (8 * off)) (width := 8)
    (BitVec.ofNat 32 n) hf (by omega) (by rwa [hbase, hstart, hwidth, hhi])
  rw [hbase, hstart, hwidth, hlo, hlen, hbuf, Nat.mul_mod_right, insertBits_byte,
    BitVec.setWidth_ofNat_of_le (by decide)] at hexec
  exact hexec

/-- `PACKBE16` stores the more significant byte at the lower address (R53, R82). -/
theorem runCommands_packbe16 {addr off value : Nat} {cmds : List Instr}
    (h : (AsmLine.packbe16 addr off value).assemble = some cmds) (hf : s.fault = 0)
    (hr : addr + off + 1 < s.cfg.msize) :
    value < 65536 ∧ runCommands cmds s =
      (s.writeByte (addr + off) (BitVec.ofNat 8 (value >>> 8))).writeByte (addr + off + 1)
        (BitVec.ofNat 8 (value &&& 0xFF)) := by
  simp only [AsmLine.assemble, Option.bind_eq_bind, Option.ite_none_right_eq_some, Option.bind_eq_some_iff,
    byteOperand_eq_some, Option.some.injEq] at h
  obtain ⟨⟨hoff, hvalue⟩, a, ⟨ha, rfl⟩, rfl⟩ := h
  have hhigh := exec_pack_byte (s := s) (off := off) (value >>> 8) ha (by omega) hf (by omega)
  have hlow := exec_pack_byte (s := s.writeByte (addr + off) (BitVec.ofNat 8 (value >>> 8))) (off := off + 1)
    (value &&& 0xFF) ha (by omega) hf (by rw [State.writeByte_cfg]; omega)
  rw [Nat.mul_succ] at hlow
  exact ⟨hvalue, (runCommands_cons hhigh _).trans (runCommands_cons hlow [])⟩

/-- Settles O35, by the two bytes written. -/
theorem bigEndianPack : Obligations.BigEndianPack := by
  intro addr off value cmds s hasm hf hr
  obtain ⟨hvalue, hrun⟩ := runCommands_packbe16 hasm hf hr
  have hhigh : (BitVec.ofNat 8 (value >>> 8)).toNat = value / 256 := by
    rw [BitVec.toNat_ofNat, Nat.shiftRight_eq_div_pow]
    omega
  have hlow : (BitVec.ofNat 8 (value &&& 0xFF)).toNat = value % 256 := by
    rw [BitVec.toNat_ofNat, Nat.and_two_pow_sub_one_eq_mod value 8, Nat.mod_mod]
  rw [hrun]
  refine ⟨?_, ?_, fun x hx hx' => ?_, rfl⟩
  · rw [State.byteAt_writeByte, if_neg (by omega), State.byteAt_writeByte, if_pos rfl, hhigh]
  · rw [State.byteAt_writeByte, if_pos rfl, hlow]
  · rw [State.byteAt_writeByte, if_neg hx', State.byteAt_writeByte, if_neg hx]

/-! ### `PACK` truncates (R48, R81) -/

/-- `insert_bits` reads the low `width` bits of the value and no other (R80). -/
theorem insertBits_congr (buf : List Byte) (start width : Nat) {v v' : BitVec 32}
    (h : ∀ i < width, v.getLsbD i = v'.getLsbD i) : insertBits buf start width v = insertBits buf start width v' := by
  induction width with
  | zero => rfl
  | succ i ih => rw [insertBits, insertBits, ih fun j hj => h j (by omega), h i (Nat.lt_succ_self i)]

theorem getLsbD_eq_of_mod_eq {v v' : BitVec 32} {n : Nat} (h : v.toNat % 2 ^ n = v'.toNat % 2 ^ n) :
    ∀ i < n, v.getLsbD i = v'.getLsbD i := by
  intro i hi
  simpa only [Nat.testBit_mod_two_pow, hi, decide_true, Bool.true_and, BitVec.testBit_toNat] using
    congrArg (Nat.testBit · i) h

/-- Settles O43: a completing `PACK` depends on the bits that it inserts. -/
theorem packTruncates : Obligations.PackTruncates := by
  intro a start width imm₁ imm₂ s hf h1 h32 hr hmod
  rw [exec_pack_completes imm₁ hf ⟨h1, h32⟩ hr, exec_pack_completes imm₂ hf ⟨h1, h32⟩ hr,
    insertBits_congr _ _ _ (getLsbD_eq_of_mod_eq hmod)]

end Sys2Proof.Machine
end

section
/-! SUPPORT. Proofs of the statements of 40_crc8_j1850.md: the result of `CRC8` is a function of the message and the final
XOR (O28), a table entry is a remainder over GF(2) (O36), `BUILD` (O37), and the linearity of `crc8_j1850` (O39). -/

namespace Sys2Proof.Machine

variable {s : State}

/-! ### The division (R60) -/

/-- The loop of R60 as the iterate of its step. -/
theorem divSteps_eq_iterate (poly : Byte) (k : Nat) : divSteps poly k = (divStep poly)^[k] := by
  induction k with
  | zero => rfl
  | succ k ih => funext c; rw [divSteps, ih, Function.iterate_succ_apply]

/-- The shift of an 8-bit register needs no mask: the step as R60 writes it, with `& 0xFF`. -/
theorem divStep_eq_masked (poly : Byte) :
    divStep poly = fun c : Byte =>
      if c.getLsbD 7 = true then ((c <<< 1) &&& 0xFF#8) ^^^ poly else (c <<< 1) &&& 0xFF#8 := by
  funext c
  rw [show 0xFF#8 = BitVec.allOnes 8 from rfl, BitVec.and_allOnes, divStep]

/-- A step is the shift, with the polynomial XORed in if bit 7 is set. -/
theorem divStep_eq_xor (poly c : Byte) : divStep poly c = c <<< 1 ^^^ if c.getLsbD 7 then poly else 0 := by
  rw [divStep]
  split
  · rfl
  · exact BitVec.xor_zero.symm

/-- The product by `x` of a polynomial of degree below 8: bit 7, which the register drops, is the coefficient of `x^8`. -/
theorem setWidth_shiftLeft_one (c : Byte) :
    c.setWidth 16 <<< 1 = (if c.getLsbD 7 then 0x100#16 else 0#16) ^^^ (c <<< 1).setWidth 16 := by
  have hlead : ∀ i, (if c.getLsbD 7 then 0x100#16 else 0#16).getLsbD i = (c.getLsbD 7 && decide (i = 8)) := by
    intro i
    cases c.getLsbD 7
    · simp
    · rw [if_pos rfl, show 0x100#16 = BitVec.twoPow 16 8 from rfl, BitVec.getLsbD_twoPow]
      simp [eq_comm]
  apply BitVec.eq_of_getLsbD_eq
  intro i hi
  rw [BitVec.getLsbD_xor, hlead, BitVec.getLsbD_shiftLeft, BitVec.getLsbD_setWidth, BitVec.getLsbD_setWidth,
    BitVec.getLsbD_shiftLeft]
  rcases Nat.lt_trichotomy i 8 with hlt | rfl | hgt
  · simp [hi, hlt, Nat.ne_of_lt hlt, show i - 1 < 16 by omega]
  · simp
  · simp [hi, Nat.ne_of_gt hgt, show ¬ i < 8 by omega, BitVec.getLsbD_of_ge c (i - 1) (by omega)]

/-- One step multiplies by `x` and subtracts the generator if the product has degree 8 (R60). -/
theorem setWidth_divStep (c : Byte) :
    c.setWidth 16 <<< 1 =
      (if c.getLsbD 7 then 0x11D#16 else 0#16) ^^^ (divStep Config.crc8Poly c).setWidth 16 := by
  rw [setWidth_shiftLeft_one, divStep]
  cases c.getLsbD 7
  · rfl
  · rw [if_pos rfl, if_pos rfl, if_pos rfl, BitVec.setWidth_xor, BitVec.xor_comm ((c <<< 1).setWidth 16),
      ← BitVec.xor_assoc]
    rfl

/-- The product takes only the coefficients of the first factor below its degree bound. -/
theorem gf2Mul_congr {k : Nat} {q q' : BitVec 16} (p : BitVec 16) (h : ∀ j < k, q.getLsbD j = q'.getLsbD j) :
    gf2Mul k q p = gf2Mul k q' p := by
  induction k with
  | zero => rfl
  | succ k ih => rw [gf2Mul, gf2Mul, h k (Nat.lt_succ_self k), ih fun j hj => h j (by omega)]

/-- `k` steps leave the remainder of `c(x) * x^k`. The first step shifts out the leading term of the quotient, and the
quotient of the other steps lies below it. -/
theorem divSteps_remainder (k : Nat) (hk : k ≤ 8) (c : Byte) :
    ∃ q : Byte, gf2Mul k (q.setWidth 16) 0x11D#16 ^^^ (divSteps Config.crc8Poly k c).setWidth 16 =
      c.setWidth 16 <<< k := by
  induction k generalizing c with
  | zero => exact ⟨0, by simp [gf2Mul, divSteps]⟩
  | succ k ih =>
    obtain ⟨q, hq⟩ := ih (by omega) (divStep Config.crc8Poly c)
    have hlead : ((setBit q k (c.getLsbD 7)).setWidth 16).getLsbD k = c.getLsbD 7 := by
      rw [BitVec.getLsbD_setWidth, getLsbD_setBit q k hk _ k hk]
      simp [show k < 16 by omega]
    have hrest : ∀ j < k, ((setBit q k (c.getLsbD 7)).setWidth 16).getLsbD j = (q.setWidth 16).getLsbD j := by
      intro j hj
      rw [BitVec.getLsbD_setWidth, BitVec.getLsbD_setWidth, getLsbD_setBit q k hk _ j (by omega), if_neg (by omega)]
    refine ⟨setBit q k (c.getLsbD 7), ?_⟩
    rw [gf2Mul, hlead, gf2Mul_congr _ hrest, divSteps, BitVec.xor_assoc, hq, Nat.add_comm k 1, BitVec.shiftLeft_add,
      setWidth_divStep, BitVec.shiftLeft_xor_distrib]
    cases c.getLsbD 7 <;> simp

/-- Settles O36, by the steps of the division: the loop is their iterate, and eight of them leave the remainder. -/
theorem j1850EntryIsRemainder : Obligations.J1850EntryIsRemainder := by
  refine ⟨fun i => ?_, divSteps_remainder 8 (le_refl 8), by decide, by decide, by decide, by decide, by decide⟩
  rw [j1850Entry, divSteps_eq_iterate, divStep_eq_masked, Config.crc8Poly]

/-! ### `BUILD` (R61) -/

/-- A word that is no command's word raises `IllegalCommand` (R50, R101). -/
theorem execWord_of_not_encode {w : Word} (hw : ∀ i, encode i ≠ w) (hf : s.fault = 0) :
    execWord w s = .next { s with fault := 1, fcmd := w } := by
  cases hd : decode w with
  | legal i => exact absurd (encode_of_decode hd) (hw i)
  | illegal why => exact execWord_illegal hd hf

/-- Opcode 0x01 is that of `BUILD` alone (R49). -/
theorem eq_build_of_opField_encode {i : Instr} (h : opField (encode i) = 0x01) : i = .build := by
  cases i with
  | build => rfl
  | _ => simp [encode, opField_joinFields] at h

/-- Settles O37: no other command has the opcode of `BUILD`, and `BUILD` writes the table and its flag alone. -/
theorem buildFillsTable : Obligations.BuildFillsTable := by
  refine ⟨by decide, by decide, by decide, fun s hf => ⟨fun w hop hne => ?_, ?_⟩⟩
  · refine execWord_of_not_encode (fun i hi => hne ?_) hf
    rw [← hi] at hop
    rw [← hi, eq_build_of_opField_encode hop]
  · exact ⟨s.setTable j1850Table, execBuild_running hf, tableAt_j1850Table, rfl, rfl, execBuild_running hf⟩

/-! ### `CRC8` reads the message and the final XOR alone (R65) -/

/-- Settles O28: both results are the bit-serial CRC of the one message. -/
theorem crc8Pure : Obligations.Crc8Pure := by
  intro a₁ a₂ b c s₁ s₂ hinv₁ hinv₂ hf₁ hf₂ hv₁ hv₂ hr₁ hr₂ hbytes
  refine ⟨crc8Serial (s₁.bytesAt a₁.toNat b.toNat) c, crc8IsSerialCrc a₁ b c s₁ hinv₁ hf₁ hv₁ hr₁, ?_⟩
  rw [hbytes]
  exact crc8IsSerialCrc a₂ b c s₂ hinv₂ hf₂ hv₂ hr₂

/-! ### Linearity (R63, V2) -/

/-- Whether the polynomial is XORed in is itself an XOR of leading bits, so a step is linear over GF(2). -/
theorem divStep_additive (poly c d : Byte) : divStep poly (c ^^^ d) = divStep poly c ^^^ divStep poly d := by
  have hpoly : ∀ a b : Bool, (if (a ^^ b) = true then poly else 0) =
      (if a = true then poly else 0) ^^^ (if b = true then poly else 0) := by
    intro a b
    cases a <;> cases b <;> simp
  rw [divStep_eq_xor, divStep_eq_xor, divStep_eq_xor, BitVec.getLsbD_xor, hpoly, BitVec.shiftLeft_xor_distrib]
  ac_rfl

theorem divSteps_additive (poly : Byte) (k : Nat) (c d : Byte) :
    divSteps poly k (c ^^^ d) = divSteps poly k c ^^^ divSteps poly k d := by
  induction k generalizing c d with
  | zero => rfl
  | succ k ih => rw [divSteps, divStep_additive, ih]; rfl

/-- The built table is linear in its index (R60, R61). -/
theorem tableAt_j1850Table_xor (c d : Byte) :
    tableAt j1850Table (c ^^^ d) = tableAt j1850Table c ^^^ tableAt j1850Table d := by
  simp only [tableAt_j1850Table]
  exact divSteps_additive _ 8 c d

/-- The XOR of two folds is the fold of the XORed messages from the XORed running values. -/
theorem crc8Fold_xor {x y : List Byte} (h : x.length = y.length) (c d : Byte) :
    crc8Fold j1850Table c x ^^^ crc8Fold j1850Table d y =
      crc8Fold j1850Table (c ^^^ d) (List.zipWith (· ^^^ ·) x y) := by
  induction x generalizing y c d with
  | nil => rw [List.eq_nil_of_length_eq_zero h.symm]; rfl
  | cons a x ih =>
    obtain _ | ⟨b, y⟩ := y
    · exact absurd h (Nat.succ_ne_zero _)
    · calc crc8Fold j1850Table c (a :: x) ^^^ crc8Fold j1850Table d (b :: y)
          = crc8Fold j1850Table (tableAt j1850Table (c ^^^ a)) x ^^^
              crc8Fold j1850Table (tableAt j1850Table (d ^^^ b)) y := rfl
        _ = crc8Fold j1850Table (tableAt j1850Table ((c ^^^ a) ^^^ (d ^^^ b))) (List.zipWith (· ^^^ ·) x y) := by
          rw [ih (Nat.succ.inj h), ← tableAt_j1850Table_xor]
        _ = crc8Fold j1850Table (c ^^^ d) (List.zipWith (· ^^^ ·) (a :: x) (b :: y)) := by
          rw [show (c ^^^ a) ^^^ (d ^^^ b) = (c ^^^ d) ^^^ (a ^^^ b) by ac_rfl]
          rfl

theorem zipWith_xor_self (x : List Byte) : List.zipWith (· ^^^ ·) x x = List.replicate x.length 0 := by
  simp [List.zipWith_self, List.map_const']

/-- Settles O39: the seeds of two messages cancel, and the third brings one back. -/
theorem crc8Linear : Obligations.Crc8Linear := by
  intro x y fx h
  generalize hz : List.zipWith (· ^^^ ·) x y = z
  have hlen : z.length = x.length := by simp [← hz, h]
  calc crc8J1850 j1850Table x fx ^^^ crc8J1850 j1850Table y fx ^^^ crc8J1850 j1850Table z fx
      = crc8Fold j1850Table 0xFF#8 x ^^^ crc8Fold j1850Table 0xFF#8 y ^^^ crc8Fold j1850Table 0xFF#8 z ^^^ fx ^^^
          (fx ^^^ fx) := by
        simp only [crc8J1850, Config.crc8Seed]
        ac_rfl
    _ = crc8Fold j1850Table 0#8 z ^^^ crc8Fold j1850Table 0xFF#8 z ^^^ fx := by
        rw [crc8Fold_xor h, hz, BitVec.xor_self, BitVec.xor_self, BitVec.xor_zero]
    _ = crc8Fold j1850Table 0xFF#8 (List.replicate x.length 0) ^^^ fx := by
        rw [crc8Fold_xor rfl, BitVec.zero_xor, zipWith_xor_self, hlen]
    _ = crc8J1850 j1850Table (List.replicate x.length 0) fx := rfl

end Sys2Proof.Machine
end

section
/-! SUPPORT. Proofs of the statements of 41_xor_rolling_crc.md: the counter is stable over a cycle (O32), `XCRC` is a
table-driven CRC (O40), and `SEQADV` counts (O41). -/

namespace Sys2Proof.Machine

variable {s t : State}

/-! ### `XCRC` (R70, R71) -/

/-- Looking up before the XOR (the fold of R70) and looking up after it (the table-driven CRC) are one fold, a look-up
apart. -/
theorem tableAt_foldl_xor (tab : ByteTable) (c : Byte) (data : List Byte) :
    tableAt tab (data.foldl (fun c d => tableAt tab c ^^^ d) c) =
      data.foldl (fun c d => tableAt tab (c ^^^ d)) (tableAt tab c) :=
  (List.foldl_hom (tableAt tab) fun _ _ => rfl).symm

/-- The two forms of R70 agree. -/
theorem xcrcOf_eq_tableCrc (tab : ByteTable) (hn : Byte) (seq : SeqCount) (data : List Byte) (k : Byte) :
    xcrcOf tab hn seq data k = tableCrc tab ([hn ||| seq.setWidth 8] ++ data ++ [k]) := by
  have hstart : xcrcStart hn seq = 0xFF#8 ^^^ (hn ||| seq.setWidth 8) := BitVec.xor_comm _ _
  rw [xcrcOf, tableAt_foldl_xor, hstart, tableCrc, List.foldl_append, List.foldl_append]
  rfl

/-- An `XCRC` that meets none of its faults writes `RES` and nothing else (R71). -/
theorem exec_xcrc_completes (a : Byte) {t : Byte} (hf : s.fault = 0) (ht : t.toNat < s.cfg.tables.xd.length)
    (hr : ∀ x ∈ offsetAddrs a.toNat (s.cfg.tables.xd[t.toNat]).offs, x < s.cfg.msize) :
    exec (.xcrc a t) s = .next (s.setRes (xcrcOf s.cfg.xtab (s.cfg.tables.xd[t.toNat]).hn s.seq
      ((offsetAddrs a.toNat (s.cfg.tables.xd[t.toNat]).offs).map s.byteAt)
      (kennungOf s.cfg.tables t.toNat ht s.seq))) := by
  rcases execXcrc_running a t hf with ⟨hno, -⟩ | ⟨_, ⟨⟨x, hx, hout⟩, -⟩ | ⟨-, e⟩⟩
  · exact absurd ht (not_lt.mpr hno)
  · exact absurd (hr x hx) (not_lt.mpr hout)
  · exact e

/-- Settles O40: the command computes the first form of R70, which is the second. -/
theorem xcrcIsTableCrc : Obligations.XcrcIsTableCrc := by
  intro a t s d ken hd hken hf hr
  obtain ⟨ht, rfl⟩ := List.getElem?_eq_some_iff.mp hd
  obtain ⟨-, rfl⟩ := List.getElem?_eq_some_iff.mp hken
  rw [exec_xcrc_completes a hf ht (List.forall_mem_map.mpr hr), xcrcOf_eq_tableCrc, offsetAddrs, List.map_map]
  rfl

/-! ### `SEQADV` (R72) -/

/-- Opcode 0x04 is that of `SEQADV` alone (R49). -/
theorem eq_seqadv_of_opField_encode {i : Instr} (h : opField (encode i) = 0x04) : i = .seqadv := by
  cases i with
  | seqadv => rfl
  | _ => simp [encode, opField_joinFields] at h

/-- A `SEQADV` writes `SEQ` and nothing else, with the wrap of a 4-bit register (R72). -/
theorem exec_seqadv_completes (hf : s.fault = 0) : exec .seqadv s = .next (s.setSeq (s.seq + 1)) :=
  execSeqadv_running hf

/-- `n` `SEQADV`s add `n` to the counter and change nothing else. -/
theorem runCommands_replicate_seqadv (n : Nat) (hf : s.fault = 0) :
    runCommands (List.replicate n .seqadv) s = s.setSeq (s.seq + BitVec.ofNat 4 n) := by
  induction n generalizing s with
  | zero => rw [BitVec.add_zero]; rfl
  | succ n ih =>
    have hseq : s.seq + 1 + BitVec.ofNat 4 n = s.seq + BitVec.ofNat 4 (n + 1) := by
      rw [BitVec.ofNat_add, BitVec.add_assoc, BitVec.add_comm 1]; rfl
    rw [List.replicate_succ, runCommands_cons (exec_seqadv_completes hf), ih ((s.setSeq_fault _).trans hf),
      State.setSeq_seq, hseq]
    rfl

/-- No other command changes `SEQ`, faulting or not, halted or not (R14, R72). -/
theorem exec_seq_of_ne_seqadv {i : Instr} (hi : i ≠ .seqadv) (e : exec i s = .next t) : t.seq = s.seq := by
  rcases exec_cases e with ⟨-, rfl⟩ | ⟨-, cause, -, rfl⟩ | ⟨-, completed⟩
  · rfl
  · rfl
  · exact completed.seq.resolve_right fun ⟨hseqadv, _⟩ => hi hseqadv

/-- Settles O41: no other command has the opcode of `SEQADV`, and `n` `SEQADV`s add `n` modulo 16. -/
theorem seqadvCounts : Obligations.SeqadvCounts := by
  refine ⟨by decide, fun s hf => ⟨fun w hop hne => ?_, ?_, fun n => ?_, ?_, fun i t => exec_seq_of_ne_seqadv⟩⟩
  · refine execWord_of_not_encode (fun i hi => hne ?_) hf
    rw [← hi] at hop
    rw [← hi, eq_seqadv_of_opField_encode hop]
  · have hseq : s.seq + 1 = BitVec.ofNat 4 ((s.seq.toNat + 1) % 16) :=
      BitVec.eq_of_toNat_eq (Nat.mod_mod _ 16).symm
    exact (exec_seqadv_completes hf).trans (by rw [hseq]; rfl)
  · rw [runCommands_replicate_seqadv n hf, BitVec.ofNat_add, BitVec.ofNat_toNat, BitVec.setWidth_eq]
    rfl
  · rw [runCommands_replicate_seqadv 16 hf, show BitVec.ofNat 4 16 = 0#4 from rfl, BitVec.add_zero]
    rfl

/-! ### The counter over a cycle (R73, R123) -/

theorem oneAdvanceAtEnd_seqadv_cons {is : List Instr} :
    oneAdvanceAtEnd (.seqadv :: is) = true ↔ .seqadv ∉ is ∧ ∀ a t, .xcrc a t ∉ is := by
  rw [oneAdvanceAtEnd, List.all_eq_true]
  constructor
  · exact fun h => ⟨fun hm => Bool.false_ne_true (h _ hm), fun a t hm => Bool.false_ne_true (h _ hm)⟩
  · rintro ⟨hadvance, hxcrc⟩ i hm
    split
    · exact absurd hm hadvance
    · exact absurd hm (hxcrc _ _)
    · rfl

theorem oneAdvanceAtEnd_cons_of_ne {i : Instr} (hi : i ≠ .seqadv) (is : List Instr) :
    oneAdvanceAtEnd (i :: is) = oneAdvanceAtEnd is := by
  cases i with
  | seqadv => exact absurd rfl hi
  | _ => rfl

/-- The one `SEQADV` of a cycle comes after every `XCRC`. -/
theorem seqadv_notMem_before_xcrc {before after : List Instr} {a t : Byte}
    (h : oneAdvanceAtEnd (before ++ .xcrc a t :: after) = true) : .seqadv ∉ before := by
  induction before with
  | nil => exact List.not_mem_nil
  | cons i before ih =>
    rw [List.cons_append] at h
    by_cases hi : i = .seqadv
    · subst hi
      obtain ⟨-, hxcrc⟩ := oneAdvanceAtEnd_seqadv_cons.mp h
      exact absurd List.mem_append_cons_self (hxcrc a t)
    · rw [oneAdvanceAtEnd_cons_of_ne hi] at h
      exact List.not_mem_cons_of_ne_of_not_mem (Ne.symm hi) (ih h)

/-- A run without a `SEQADV` keeps the counter, whether it faults or not. -/
theorem runCommands_seq {is : List Instr} (h : .seqadv ∉ is) : (runCommands is s).seq = s.seq := by
  induction is generalizing s with
  | nil => rfl
  | cons i is ih =>
    obtain ⟨hi, his⟩ := List.ne_and_not_mem_of_not_mem_cons h
    obtain ⟨t, e⟩ := exec_answers_next i s
    rw [runCommands_cons e, ih his, exec_seq_of_ne_seqadv (Ne.symm hi) e]

/-- A clean cycle advances the counter by one. -/
theorem CleanRun.seq_of_oneAdvanceAtEnd {cycle : List Instr} (hclean : CleanRun cycle s)
    (h : oneAdvanceAtEnd cycle = true) : (runCommands cycle s).seq = s.seq + 1 := by
  induction cycle generalizing s with
  | nil => exact absurd h Bool.false_ne_true
  | cons i is ih =>
    by_cases hi : i = .seqadv
    · subst hi
      obtain ⟨hadvance, -⟩ := oneAdvanceAtEnd_seqadv_cons.mp h
      rw [runCommands_cons (exec_seqadv_completes hclean.fault), runCommands_seq hadvance, State.setSeq_seq]
    · obtain ⟨t, e⟩ := exec_answers_next i s
      rw [oneAdvanceAtEnd_cons_of_ne hi] at h
      rw [CleanRun, runCommands_cons e] at hclean
      rw [runCommands_cons e, ih hclean h, exec_seq_of_ne_seqadv hi e]

/-- Settles O32: the commands before an `XCRC` hold no `SEQADV`, and a clean cycle runs its one. -/
theorem counterStableInCycle : Obligations.CounterStableInCycle := by
  refine fun cycle s h => ⟨?_, fun hclean => hclean.seq_of_oneAdvanceAtEnd h⟩
  rintro before after a t rfl
  exact runCommands_seq (seqadv_notMem_before_xcrc h)

end Sys2Proof.Machine
end

section
/-! SUPPORT. Proofs of the statements of 42_pack_layout.md: `XSUM` is a parity, bit by bit (O44), an attached checksum sums
to zero (O45), and `CNXT` is the successor of a rolling counter (O46), which comes round after its modulus (O47). -/

namespace Sys2Proof.Machine

variable {s : State}

/-! ### The running XOR (R83) -/

@[simp] theorem xsumOf_concat (bytes : List Byte) (v : Byte) : xsumOf (bytes ++ [v]) = xsumOf bytes ^^^ v := by
  rw [xsumOf, List.foldl_append]
  rfl

/-- A bit of the running XOR tells whether an odd number of the bytes have that bit. -/
theorem getLsbD_xsumOf (bytes : List Byte) (k : Nat) :
    (xsumOf bytes).getLsbD k = decide (bytes.countP (fun v => v.getLsbD k) % 2 = 1) := by
  induction bytes using List.reverseRecOn with
  | nil => exact BitVec.getLsbD_zero
  | append_singleton bytes v ih =>
    rw [xsumOf_concat, BitVec.getLsbD_xor, ih, List.countP_append, List.countP_singleton]
    cases v.getLsbD k
    · simp
    · rw [Bool.xor_true, ← decide_not]
      exact decide_eq_decide.mpr (by simp only [if_true]; omega)

/-- An `XSUM` of a range in `M` writes `RES` and nothing else (R83). -/
theorem exec_xsum_completes {a b : Byte} (hf : s.fault = 0) (hr : a.toNat + b.toNat ≤ s.cfg.msize) :
    exec (.xsum a b) s = .next (s.setRes (xsumOf (s.bytesAt a.toNat b.toNat))) := by
  rcases execXsum_running a b hf with ⟨hout, -⟩ | ⟨-, e⟩
  · omega
  · exact e

/-- Settles O44, by the bits of the running XOR. -/
theorem xsumIsParity : Obligations.XsumIsParity :=
  fun _ _ _ hf hr => ⟨_, exec_xsum_completes hf hr, fun k _ => getLsbD_xsumOf _ k⟩

/-! ### An attached checksum (R83, R92) -/

/-- An `STRES` to an address in `M` writes `RES` there (R92). -/
theorem exec_stres_completes {a : Byte} (hf : s.fault = 0) (hr : a.toNat < s.cfg.msize) :
    exec (.stres a) s = .next (s.writeByte a.toNat s.res) := by
  rcases execStres_running a hf with ⟨hout, -⟩ | ⟨-, e⟩
  · omega
  · exact e

theorem State.bytesAt_succ (s : State) (a n : Nat) : s.bytesAt a (n + 1) = s.bytesAt a n ++ [s.byteAt (a + n)] := by
  rw [State.bytesAt, List.range_succ, List.map_append]
  rfl

/-- A byte written behind a range is the last byte of the range one longer. -/
theorem State.bytesAt_succ_writeByte (s : State) (a n : Nat) (v : Byte) :
    (s.writeByte (a + n) v).bytesAt a (n + 1) = s.bytesAt a n ++ [v] := by
  have hrange : (s.writeByte (a + n) v).bytesAt a n = s.bytesAt a n :=
    State.bytesAt_congr fun i hi => by rw [State.byteAt_writeByte, if_neg (by omega)]
  rw [State.bytesAt_succ, hrange, State.byteAt_writeByte, if_pos rfl]

/-- Over a frame whose last byte is the checksum of the bytes before it `XSUM` gives zero: the checksum meets itself. -/
theorem exec_xsum_attached {a b : Byte} (hf : s.fault = 0) (hb : b.toNat < 255)
    (hr : a.toNat + b.toNat < s.cfg.msize) :
    exec (.xsum a (b + 1)) (s.writeByte (a.toNat + b.toNat) (xsumOf (s.bytesAt a.toNat b.toNat))) =
      .next ((s.writeByte (a.toNat + b.toNat) (xsumOf (s.bytesAt a.toNat b.toNat))).setRes 0) := by
  generalize hx : xsumOf (s.bytesAt a.toNat b.toNat) = x
  have hlen : (b + 1).toNat = b.toNat + 1 := BitVec.toNat_add_of_lt (show b.toNat + 1 < 256 by omega)
  have hexec := exec_xsum_completes (s := s.writeByte (a.toNat + b.toNat) x) (a := a) (b := b + 1) hf
    (by rw [hlen]; exact hr)
  rwa [hlen, State.bytesAt_succ_writeByte, xsumOf_concat, hx, BitVec.xor_self] at hexec

/-- The state after a checksum is summed, attached behind its range and summed with it. -/
theorem runCommands_attach_xsum {a b : Byte} (hf : s.fault = 0) (hb : b.toNat < 255)
    (hr : a.toNat + b.toNat < s.cfg.msize) :
    runCommands [.xsum a b, .stres (a + b), .xsum a (b + 1)] s =
      ((s.setRes (xsumOf (s.bytesAt a.toNat b.toNat))).writeByte (a.toNat + b.toNat)
        (xsumOf (s.bytesAt a.toNat b.toNat))).setRes 0 := by
  obtain ⟨-, hmsize⟩ := s.cfg.msize_ok
  have haddr : (a + b).toNat = a.toNat + b.toNat := BitVec.toNat_add_of_lt (by omega)
  have hstore := exec_stres_completes (s := s.setRes (xsumOf (s.bytesAt a.toNat b.toNat))) (a := a + b) hf
    (by rwa [haddr])
  rw [haddr] at hstore
  have hresum := exec_xsum_attached (s := s.setRes (xsumOf (s.bytesAt a.toNat b.toNat))) hf hb hr
  rw [runCommands_cons (exec_xsum_completes hf hr.le), runCommands_cons hstore]
  exact runCommands_cons hresum []

/-- Settles O45, by the state after the three commands. -/
theorem attachedXsumIsZero : Obligations.AttachedXsumIsZero := by
  intro a b s hf hb hr
  rw [runCommands_attach_xsum hf hb hr]
  exact ⟨rfl, hf⟩

/-! ### `CNXT` (R84) -/

/-- Opcode 0x07 is that of `CNXT` alone (R49). -/
theorem eq_cnxt_of_opField_encode {i : Instr} (h : opField (encode i) = 0x07) : ∃ v m, i = .cnxt v m := by
  cases i with
  | cnxt v m => exact ⟨v, m, rfl⟩
  | _ => simp [encode, opField_joinFields] at h

/-- The successor fits a byte, because a modulus is at most 256. -/
theorem toNat_counterNext (v : Byte) {m : Nat} (hm : m ≤ 256) :
    (counterNext v m).toNat = if v.toNat + 1 ≥ m then 0 else v.toNat + 1 := by
  rw [counterNext]
  split
  · rfl
  · exact Nat.mod_eq_of_lt (by omega)

/-- Below the modulus the next value is the successor modulo `m`. -/
theorem toNat_counterNext_of_lt {v : Byte} {m : Nat} (hm : m ≤ 256) (hv : v.toNat < m) :
    (counterNext v m).toNat = (v.toNat + 1) % m := by
  rw [toNat_counterNext v hm]
  split
  · next hlast => rw [show v.toNat + 1 = m by omega, Nat.mod_self]
  · next hbelow => exact (Nat.mod_eq_of_lt (by omega)).symm

theorem counterNext_of_le {v : Byte} {m : Nat} (hv : m ≤ v.toNat) : counterNext v m = 0 :=
  if_pos (by omega)

/-- A `CNXT` writes `RES` and nothing else, whatever its operands (R84). -/
theorem exec_cnxt_completes (v code : Byte) (hf : s.fault = 0) :
    exec (.cnxt v code) s = .next (s.setRes (counterNext v (modulusOf code))) :=
  execCnxt_running v code hf

/-- Settles O46: no other command has the opcode of `CNXT`, whose word has zeros in `C` and `IMM`. -/
theorem cnxtSuccessor : Obligations.CnxtSuccessor := by
  refine fun s hf => ⟨fun w hop hfields => execWord_of_not_encode (fun i hi => ?_) hf, ?_⟩
  · subst hi
    obtain ⟨v, m, rfl⟩ := eq_cnxt_of_opField_encode hop
    rcases hfields with hc | himm
    · exact hc (cField_joinFields ..)
    · exact himm (immField_joinFields ..)
  · rintro v code m rfl
    obtain ⟨-, hm⟩ := modulusOf_range code
    exact ⟨rfl, _, exec_cnxt_completes v code hf, toNat_counterNext v hm, toNat_counterNext_of_lt hm,
      counterNext_of_le⟩

/-! ### The period of a counter (R84, R85) -/

/-- `n` steps from a value below the modulus add `n` modulo `m`. -/
theorem toNat_iterate_counterNext {v : Byte} {m : Nat} (hm : m ≤ 256) (hv : v.toNat < m) (n : Nat) :
    ((counterNext · m)^[n] v).toNat = (v.toNat + n) % m := by
  induction n with
  | zero => exact (Nat.mod_eq_of_lt hv).symm
  | succ n ih =>
    have hbelow : ((counterNext · m)^[n] v).toNat < m := ih ▸ Nat.mod_lt _ (by omega)
    rw [Function.iterate_succ_apply', toNat_counterNext_of_lt hm hbelow, ih, Nat.mod_add_mod, Nat.add_assoc]

/-- Settles O47: each run of one `CNXT` is one step of the counter, and `m` steps add the modulus. -/
theorem cnxtPeriod : Obligations.CnxtPeriod := by
  intro v code s m hf hcode hv
  obtain rfl : m = modulusOf code := hcode
  obtain ⟨-, hm⟩ := modulusOf_range code
  have hstep : (fun x : Byte => (runCommands [.cnxt x code] s).res) = (counterNext · (modulusOf code)) :=
    funext fun x => congrArg State.res (runCommands_cons (exec_cnxt_completes x code hf) [])
  rw [hstep]
  have hiterate := toNat_iterate_counterNext hm hv
  refine ⟨hiterate, BitVec.eq_of_toNat_eq ?_⟩
  calc ((counterNext · (modulusOf code))^[modulusOf code] v).toNat
      = (v.toNat + modulusOf code) % modulusOf code := hiterate _
    _ = v.toNat := by rw [Nat.add_mod_right, Nat.mod_eq_of_lt hv]

end Sys2Proof.Machine
end

section
/-! SUPPORT. Proofs of the statements of 43_buffer_access.md: `WRB` writes a byte (O48), `RDB` reads one (O49), and `STRES`
stores the result (O50). -/

namespace Sys2Proof.Machine

variable {s : State}

/-- A command in a block that is not halted raises the fault it is due (R101, R104). -/
theorem exec_of_faultDue {i : Instr} {cause : FaultCause} (hf : s.fault = 0) (hdue : faultDue s i = some cause) :
    exec i s = .next (s.raise cause (encode i)) := by
  obtain ⟨t, e, ⟨cause', hdue', rfl⟩ | ⟨hnone, -⟩⟩ := exec_outcome i hf
  · obtain rfl : cause' = cause := Option.some.inj (hdue'.symm.trans hdue)
    exact e
  · exact nomatch hnone.symm.trans hdue

/-- A byte written is read back, and neither another byte nor a register changes (R8, R37). -/
theorem State.writeByte_effect (s : State) (a : Nat) (v : Byte) :
    (s.writeByte a v).byteAt a = v ∧ (∀ x, x ≠ a → (s.writeByte a v).byteAt x = s.byteAt x) ∧
      { s.writeByte a v with mem := s.mem } = s := by
  refine ⟨?_, fun x hx => ?_, rfl⟩
  · rw [State.byteAt_writeByte, if_pos rfl]
  · rw [State.byteAt_writeByte, if_neg hx]

/-! ### `WRB` (R90) -/

/-- Opcode 0x08 is that of `WRB` alone (R49). -/
theorem eq_wrb_of_opField_encode {i : Instr} (h : opField (encode i) = 0x08) : ∃ a c, i = .wrb a c := by
  cases i with
  | wrb a c => exact ⟨a, c, rfl⟩
  | _ => simp [encode, opField_joinFields] at h

/-- Settles O48: no other command has the opcode of `WRB`, whose word has zeros in `B` and `IMM`, and in `M` it is the write
of one byte. -/
theorem wrbWritesByte : Obligations.WrbWritesByte := by
  refine fun s hf => ⟨fun w hop hfields => execWord_of_not_encode (fun i hi => ?_) hf,
    fun a c => ⟨rfl, fun hout => ?_, fun hin => ?_⟩⟩
  · subst hi
    obtain ⟨a, c, rfl⟩ := eq_wrb_of_opField_encode hop
    rcases hfields with hb | himm
    · exact hb (bField_joinFields ..)
    · exact himm (immField_joinFields ..)
  · exact exec_of_faultDue hf (by rw [faultDue_wrb s a c, if_pos hout])
  · exact ⟨_, exec_wrb_completes c hf hin, s.writeByte_effect a.toNat c⟩

/-! ### The commands whose one operand is `A` (R47) -/

/-- Opcodes 0x09 and 0x0A are those of `RDB` and `STRES` alone (R49), whose words have zeros in `B`, `C` and `IMM` (R47). -/
theorem zeroFields_of_opField_encode {i : Instr} (h : opField (encode i) = 0x09 ∨ opField (encode i) = 0x0A) :
    bField (encode i) = 0 ∧ cField (encode i) = 0 ∧ immField (encode i) = 0 := by
  cases i with
  | rdb a | stres a => exact ⟨bField_joinFields .., cField_joinFields .., immField_joinFields ..⟩
  | _ => simp [encode, opField_joinFields] at h

/-- A word of opcode 0x09 or 0x0A with another value than zero in `B`, `C` or `IMM` raises `IllegalCommand` (R47, R50). -/
theorem execWord_of_nonzeroField {w : Word} (hop : opField w = 0x09 ∨ opField w = 0x0A)
    (hfields : bField w ≠ 0 ∨ cField w ≠ 0 ∨ immField w ≠ 0) (hf : s.fault = 0) :
    execWord w s = .next { s with fault := 1, fcmd := w } := by
  refine execWord_of_not_encode (fun i hi => ?_) hf
  subst hi
  obtain ⟨hb, hc, himm⟩ := zeroFields_of_opField_encode hop
  rcases hfields with h | h | h
  · exact h hb
  · exact h hc
  · exact h himm

/-! ### `RDB` (R91) -/

/-- An `RDB` of an address in `M` reads its byte into `RES` (R91). -/
theorem exec_rdb_completes {a : Byte} (hf : s.fault = 0) (hr : a.toNat < s.cfg.msize) :
    exec (.rdb a) s = .next (s.setRes (s.byteAt a.toNat)) := by
  rcases execRdb_running a hf with ⟨hout, -⟩ | ⟨-, e⟩
  · omega
  · exact e

/-- Settles O49, by the range of `A`: in `M` the command writes `RES`, and outside it is due `AddressRange`. -/
theorem rdbReadsByte : Obligations.RdbReadsByte := by
  refine fun s hf => ⟨fun w hop hfields => execWord_of_nonzeroField (.inl hop) hfields hf,
    fun a => ⟨rfl, fun hout => ?_, fun hin => exec_rdb_completes hf hin⟩⟩
  exact exec_of_faultDue hf (by rw [faultDue_rdb, if_pos hout])

/-! ### `STRES` (R92) -/

/-- Settles O50, by the range of `A`: in `M` the command is the write of one byte, the value of `RES`. -/
theorem stresStoresResult : Obligations.StresStoresResult := by
  refine fun s hf => ⟨fun w hop hfields => execWord_of_nonzeroField (.inr hop) hfields hf,
    fun a => ⟨rfl, fun hout => ?_, fun hin => ?_⟩⟩
  · exact exec_of_faultDue hf (by rw [faultDue_stres, if_pos hout])
  · exact ⟨_, exec_stres_completes hf hin, s.writeByte_effect a.toNat s.res⟩

end Sys2Proof.Machine
end

section
/-! SUPPORT. Proofs of the statements of 60_exceptions.md: the block ignores every word while it is halted (O14), the codes
of the faults (O15), fault entry (O16), and the priority of the causes (O17). -/

namespace Sys2Proof.Machine

variable {s t : State}

/-! ### The priority of the causes (R104) -/

/-- A command that is due no fault completes (R9, R100). -/
theorem exec_of_faultDue_none {i : Instr} (hf : s.fault = 0) (hdue : faultDue s i = none) :
    ∃ t, exec i s = .next t ∧ Completes i s t := by
  obtain ⟨t, e, ⟨cause, hdue', -⟩ | ⟨-, completed⟩⟩ := exec_outcome i hf
  · exact nomatch hdue'.symm.trans hdue
  · exact ⟨t, e, completed⟩

/-- Settles O17, by the fault the command is due: the raise is the whole next state, and a completed command leaves `FAULT`
and `FCMD` as they were. -/
theorem lowestFaultWins : Obligations.LowestFaultWins := by
  intro i s hf
  cases hdue : faultDue s i with
  | some cause => exact exec_of_faultDue hf hdue
  | none =>
    obtain ⟨t, e, completed⟩ := exec_of_faultDue_none hf hdue
    exact ⟨t, e, completed.fault.trans hf, completed.fcmd⟩

/-! ### Fault entry (R101) -/

/-- A command in a block that is not halted leaves `FAULT` nonzero only by fault entry (R101). -/
theorem exec_raises {i : Instr} (hf : s.fault = 0) (e : exec i s = .next t) (ht : t.fault ≠ 0) :
    ∃ cause, t = s.raise cause (encode i) := by
  rcases exec_cases e with ⟨hhalt, -⟩ | ⟨-, cause, -, raised⟩ | ⟨-, completed⟩
  · exact absurd hf hhalt
  · exact ⟨cause, raised⟩
  · exact absurd (completed.fault.trans hf) ht

/-- A word in a block that is not halted leaves `FAULT` nonzero only by fault entry, with itself as the word recorded: it is
the encoding of the command it spells (R50, R51, R101). -/
theorem execWord_raises {w : Word} (hf : s.fault = 0) (e : execWord w s = .next t) (ht : t.fault ≠ 0) :
    ∃ cause, t = s.raise cause w := by
  cases hd : decode w with
  | legal i =>
    rw [execWord_legal hd] at e
    exact encode_of_decode hd ▸ exec_raises hf e ht
  | illegal why =>
    rw [execWord_illegal hd hf] at e
    exact ⟨.illegalCommand, (Host.Outcome.next.inj e).symm⟩

/-- Settles O16: the next state is that of fault entry, whose code is never 0, so the block is halted. -/
theorem faultEntry : Obligations.FaultEntry := by
  intro s t w hf e ht
  obtain ⟨cause, rfl⟩ := execWord_raises hf e ht
  exact ⟨⟨cause, rfl⟩, rfl, State.halted_eq_true.mpr ht, fun w' => execWord_halted w' ht⟩

/-- Settles O15. -/
theorem faultCodes : Obligations.FaultCodes :=
  ⟨rfl, rfl, rfl, rfl, rfl⟩

/-! ### The halted block (R103) -/

/-- A step of a halted block resets it, or takes at most the host's next action and changes nothing else (R22, R103). -/
theorem step_halted_cases (hf : s.fault ≠ 0) (e : step s = .next t) :
    (∃ more, s.inbox = .reset :: more) ∨ ∃ inbox, t = { s with inbox := inbox } := by
  rcases step_cases e with ⟨-, rfl⟩ | ⟨r, rest, -, rfl⟩ | ⟨rest, hin, -⟩ | ⟨w, rest, -, -, rfl⟩ |
    ⟨w, rest, -, hrun, -⟩ | ⟨w, rest, i, -, hrun, -⟩
  · exact .inr ⟨_, rfl⟩
  · exact .inr ⟨_, rfl⟩
  · exact .inl ⟨rest, hin⟩
  · exact .inr ⟨_, rfl⟩
  · exact absurd hrun hf
  · exact absurd hrun hf

/-- Settles O14, by the host's next action: a word is ignored, a read changes nothing, and of the steps of a halted block
only the reset touches `FAULT`. -/
theorem haltedIgnoresEveryWord : Obligations.HaltedIgnoresEveryWord := by
  intro s rest hf
  refine ⟨fun w => execWord_halted w hf, fun w hin => ?word, fun r hin => step_read hin, fun t e ht => ?cleared,
    fun hin => ⟨_, step_reset hin, rfl⟩⟩
  case word => exact (step_issue hin).trans (execWord_halted w hf)
  case cleared =>
    rcases step_halted_cases hf e with hreset | ⟨inbox, rfl⟩
    · exact hreset
    · exact absurd ht hf

end Sys2Proof.Machine
end

section
/-! SUPPORT. Proofs of the statements of 70_reset_and_hazards.md: a program that seeds the bytes it reads does the same from
every member of the family of reset states (O29), and one that builds the table first never misses it (O31). -/

namespace Sys2Proof.Machine

variable {s t : State} {i : Instr} {is : List Instr}

/-! ### A seeded program from two states (R121, R122) -/

/-- A command that leaves the block halted has written no byte (R101, R103). -/
theorem exec_byteAt_of_fault (e : exec i s = .next t) (ht : t.fault ≠ 0) (x : Nat) : t.byteAt x = s.byteAt x := by
  rcases exec_cases e with ⟨-, rfl⟩ | ⟨-, cause, -, rfl⟩ | ⟨hf, completed⟩
  · rfl
  · exact State.byteAt_raise s cause _ x
  · exact absurd (completed.fault.trans hf) ht

theorem exec_cfg (e : exec i s = .next t) : t.cfg = s.cfg := by
  rcases exec_cases e with ⟨-, rfl⟩ | ⟨-, cause, -, rfl⟩ | ⟨-, completed⟩
  · rfl
  · rfl
  · exact completed.cfg

/-- Each command of a seeded program reads only bytes already written, and adds those it writes (R122 duty 2). -/
theorem seededFrom_cons {c : Config} {written : List Nat} :
    seededFrom c written (i :: is) = true ↔
      (∀ x ∈ readAddrs c i, x ∈ written) ∧ seededFrom c (writeAddrs i ++ written) is = true := by
  simp [seededFrom]

section

variable {s₁ s₂ t₁ t₂ : State} {a b written : List Nat}

theorem State.sameBytes_append :
    State.SameBytes (a ++ b) s₁ s₂ ↔ State.SameBytes a s₁ s₂ ∧ State.SameBytes b s₁ s₂ :=
  List.forall_mem_append

/-- Bytes that agree before a command with the same effect in both states agree after it: a byte it does not write is kept,
and so is every byte if it raised a fault (R36, R101). -/
theorem State.SameEffect.keeps_sameBytes (h : State.SameEffect (writeAddrs i) t₁ t₂) (e₁ : exec i s₁ = .next t₁)
    (e₂ : exec i s₂ = .next t₂) (hb : State.SameBytes written s₁ s₂) : State.SameBytes written t₁ t₂ := by
  intro x hx
  by_cases hf : t₁.fault = 0
  · by_cases hw : x ∈ writeAddrs i
    · exact h.bytes hf x hw
    · rw [(exec_memoryEffect e₁).byteAt hw, (exec_memoryEffect e₂).byteAt hw, hb x hx]
  · rw [exec_byteAt_of_fault e₁ hf, exec_byteAt_of_fault e₂ (h.regs.fault ▸ hf), hb x hx]

/-- A program that reads only bytes on which the states agree has the same effect in both, and keeps that agreement. -/
theorem runCommands_sameEffect (hregs : State.SameRegs s₁ s₂) (hb : State.SameBytes written s₁ s₂)
    (hseed : seededFrom s₁.cfg written is = true) :
    State.SameEffect (is.flatMap writeAddrs) (runCommands is s₁) (runCommands is s₂) ∧
      State.SameBytes written (runCommands is s₁) (runCommands is s₂) := by
  induction is generalizing s₁ s₂ written with
  | nil => exact ⟨hregs.sameEffect_nil, hb⟩
  | cons i is ih =>
    obtain ⟨hread, hrest⟩ := seededFrom_cons.mp hseed
    obtain ⟨t₁, e₁⟩ := exec_answers_next i s₁
    obtain ⟨t₂, e₂⟩ := exec_answers_next i s₂
    have effect : State.SameEffect (writeAddrs i) t₁ t₂ :=
      exec_sameEffect i hregs (fun x hx => hb x (hread x hx)) e₁ e₂
    have kept : State.SameBytes written t₁ t₂ := effect.keeps_sameBytes e₁ e₂ hb
    rw [runCommands_cons e₁, runCommands_cons e₂]
    by_cases hf : t₁.fault = 0
    · have hbytes : State.SameBytes (writeAddrs i ++ written) t₁ t₂ := State.sameBytes_append.mpr ⟨effect.bytes hf, kept⟩
      obtain ⟨rest, hsame⟩ := ih effect.regs hbytes (exec_cfg e₁ ▸ hrest)
      obtain ⟨hwritten, hold⟩ := State.sameBytes_append.mp hsame
      exact ⟨⟨rest.regs, fun h0 => State.sameBytes_append.mpr ⟨hwritten, rest.bytes h0⟩⟩, hold⟩
    · rw [runCommands_halted is hf, runCommands_halted is (effect.regs.fault ▸ hf)]
      exact ⟨⟨effect.regs, fun h0 => absurd h0 hf⟩, kept⟩

end

/-- Settles O29, by induction on the program: every byte a command reads is one on which the two runs agree. -/
theorem seededProgramIndependentOfResetContents : Obligations.SeededProgramIndependentOfResetContents := by
  intro prog written s₁ s₂ hcfg htabv htab hseq hres hfault hfcmd hb hseed
  obtain ⟨⟨regs, hbytes⟩, hwritten⟩ :=
    runCommands_sameEffect ⟨hcfg, htabv, htab, hseq, hres, hfault, hfcmd⟩ hb hseed
  exact ⟨regs.tabv, regs.seq, regs.res, regs.fault, regs.fcmd, hwritten,
    fun hclean i hi x hx => hbytes hclean x (List.mem_flatMap_of_mem hi hx)⟩

/-! ### The table before its first use (R122, R124) -/

/-- No command of the program can find the table missing: it is built, or the program builds it first. -/
def TableReady (is : List Instr) (s : State) : Prop := s.tabv = true ∨ tableBuiltFirst is = true

/-- Only a `CRC8` is due `TableNotBuilt`, and only while `TABV` is 0 (R64, R100). -/
theorem eq_crc8_of_faultDue_tableNotBuilt (h : faultDue s i = some .tableNotBuilt) :
    s.tabv = false ∧ ∃ a b c, i = .crc8 a b c := by
  have hcond : faultCondition s i .tableNotBuilt = true := List.find?_some h
  cases i with
  | crc8 a b c => exact ⟨by simpa [faultCondition] using hcond, a, b, c, rfl⟩
  | _ => exact absurd hcond Bool.false_ne_true

/-- With the table ready, the next command is not due `TableNotBuilt`: a `CRC8` cannot come before the `BUILD`. -/
theorem TableReady.faultDue_ne_tableNotBuilt (h : TableReady (i :: is) s) : faultDue s i ≠ some .tableNotBuilt := by
  intro hdue
  obtain ⟨hv, a, b, c, rfl⟩ := eq_crc8_of_faultDue_tableNotBuilt hdue
  rcases h with hbuilt | hfirst
  · exact Bool.false_ne_true (hv.symm.trans hbuilt)
  · exact Bool.false_ne_true hfirst

theorem tableBuiltFirst_tail (hi : i ≠ .build) (h : tableBuiltFirst (i :: is) = true) : tableBuiltFirst is = true := by
  cases i with
  | build => exact absurd rfl hi
  | crc8 a b c => exact absurd h Bool.false_ne_true
  | _ => exact h

/-- A completed command leaves the table ready for the rest of the program: `BUILD` builds it, and no command clears `TABV`
(R13, R61). -/
theorem TableReady.completes (h : TableReady (i :: is) s) (hf : s.fault = 0) (e : exec i s = .next t)
    (completed : Completes i s t) : TableReady is t := by
  by_cases hi : i = .build
  · subst hi
    obtain rfl : s.setTable j1850Table = t := Host.Outcome.next.inj ((execBuild_running hf).symm.trans e)
    exact .inl rfl
  · rcases completed.table_writer with ⟨-, htabv⟩ | ⟨hbuild, -, -⟩
    · exact h.imp htabv.trans (tableBuiltFirst_tail hi)
    · exact absurd hbuild hi

/-- A program that finds the table ready never raises `TableNotBuilt`: another fault halts the run, and a completed command
leaves the table ready. -/
theorem TableReady.runCommands_ne_tableNotBuilt (h : TableReady is s) (hf : s.fault = 0) :
    (runCommands is s).fault ≠ FaultCause.code .tableNotBuilt := by
  induction is generalizing s with
  | nil => exact fun hcode => FaultCause.code_ne_zero _ (hcode.symm.trans hf)
  | cons i is ih =>
    obtain ⟨t, e, ⟨cause, hdue, rfl⟩ | ⟨-, completed⟩⟩ := exec_outcome i hf
    · rw [runCommands_cons e, runCommands_halted is cause.code_ne_zero, State.raise_fault]
      intro hcode
      exact h.faultDue_ne_tableNotBuilt (FaultCause.code_injective hcode ▸ hdue)
    · rw [runCommands_cons e]
      exact ih (h.completes hf e completed) (completed.fault.trans hf)

/-- Settles O31: a program that builds the table first finds it ready. -/
theorem builtFirstNeverTableFault : Obligations.BuiltFirstNeverTableFault :=
  fun _ _ hf hbuilt => TableReady.runCommands_ne_tableNotBuilt (.inr hbuilt) hf

end Sys2Proof.Machine
end
